-- ==== Sys2Proof/Word.lean ====
section
/-!
DEFINITION. The words of CopperLib CORE (spec/00_scope.md R6, R8): bytes, byte strings, the 32-bit and 64-bit
words of the block transform and the hash, and the four fixed-size arrays.
-/

namespace Sys2Proof

/-- A byte, "an unsigned integer 0..255" (R8). -/
abbrev Byte := BitVec 8

/-- A byte string, "a finite sequence of bytes", indexed from 0 (R8). -/
abbrev Bytes := List Byte

/-- A 32-bit word: the counter CTR, a STATUS value, a word of the block transform. -/
abbrev W32 := BitVec 32

/-- A 64-bit word of SHA-512 (R139). -/
abbrev W64 := BitVec 64

/-- The cipher key, KEY_LEN = 32 bytes (R6, R15). -/
abbrev Key := Vector Byte 32

/-- The cipher nonce, NONCE_LEN = 12 bytes (R6, R16). -/
abbrev Nonce := Vector Byte 12

/-- A keystream block, BLOCK_LEN = 64 bytes (R6, R18). -/
abbrev Block := Vector Byte 64

/-- A digest, DIGEST_LEN = 64 bytes (R6, R135). -/
abbrev Digest := Vector Byte 64

/-- `zeros(n)`: n bytes of 0x00 (R8). -/
def zeros (n : Nat) : Bytes := List.replicate n 0

/-- DELIM, the frame delimiter byte 0x00 (R6). -/
def delim : Byte := 0

end Sys2Proof
end

