-- ==== Sys2Proof/Config.lean ====
section
/-!
DEFINITION. The parameters of the model: what spec/00_scope.md R6 and R7 and spec/10_state.md R28 leave to an
instantiation, as plain data, and the uninterpreted functions behind the choices the spec leaves open.
-/

namespace Sys2Proof

/-- A capacity parameter: "each a natural number or unbounded" (R7). -/
inductive Capacity where
  | unbounded
  | atMost (n : Nat)
deriving DecidableEq, Repr

/-- Which function BLOCK_FN is (R110): the default, the ChaCha20 block function, or any other total function,
of which nothing is known. The spec marks the default "from general knowledge, not in source"; assumption log 4. -/
inductive BlockFn where
  | chacha20
  | other (n : Nat)
deriving DecidableEq, Repr

/-- Which function HASH_FN is (R135): SHA-512, or any other total function, of which nothing is known.
The spec marks the algorithm "from general knowledge, not in source"; assumption log 5. -/
inductive HashFn where
  | sha512
  | other (n : Nat)
deriving DecidableEq, Repr

/-- The parameters of one CORE (R28: "parameters of the model, not state"). They are carried in the state as
a constant so that a statement over all states covers every instantiation (assumption log 3). -/
structure Config where
  /-- IBUF_CAP (R7) -/
  ibufCap : Capacity
  /-- OQ_PKTS_CAP (R7) -/
  oqPktsCap : Capacity
  /-- OQ_BYTES_CAP (R7) -/
  oqBytesCap : Capacity
  /-- CARRY_CAP (R7) -/
  carryCap : Capacity
  /-- KDF_C0, the initial cursor (R6) -/
  kdfC0 : Nat
  /-- KDF_NONCE_POS, the 0-based output positions that go into the nonce (R6) -/
  kdfNoncePos : List Nat
  /-- BLOCK_FN (R110) -/
  blockFn : BlockFn
  /-- HASH_FN (R135) -/
  hashFn : HashFn
deriving DecidableEq, Repr

/-- The reference instantiation: all four capacities unbounded (R7), the literals of R6, the default BLOCK_FN
(R110) and SHA-512 (R135). -/
def Config.reference : Config where
  ibufCap := .unbounded
  oqPktsCap := .unbounded
  oqBytesCap := .unbounded
  carryCap := .unbounded
  kdfC0 := 42
  kdfNoncePos := [3, 7, 9, 12, 14, 17, 21, 24, 26, 28, 33, 42]
  blockFn := .chacha20
  hashFn := .sha512

/-- Any BLOCK_FN but the default: "a total function from (32-byte key, 12-byte nonce, 32-bit counter) to 64
bytes, depending on nothing else" (R110). No body: no proof can see a value of it. -/
opaque Config.otherBlockFn : Nat → Key → Nonce → W32 → Block

/-- Any HASH_FN but SHA-512: "a total function from byte strings to 64 bytes" (R135). No body. -/
opaque Config.otherHashFn : Nat → Bytes → Digest

/-- The digest of a message whose bit length does not fit the 128-bit length field of R136: the spec states
no value for it. A free value (DESIGN CHOICE, assumption log 6). No body. -/
opaque Config.longMessageDigest : Bytes → Digest

end Sys2Proof
end

