-- ==== Sys2Proof/Syntax.lean ====
section
/-!
DEFINITION. The instructions: CORE command set 1, the eleven commands of spec/30_encoding.md R53. A command
carries no immediates, register numbers, addresses or lengths (R52), so no constructor has an argument.
-/

namespace Sys2Proof

/-- The eleven commands of R53, one per row of spec/opcode_table.json. -/
inductive Instr where
  /-- BUF.CLR (R73) -/
  | bufClr
  /-- FC.ENC (R83) -/
  | fcEnc
  /-- FC.FRAME (R84) -/
  | fcFrame
  /-- FC.DEC (R87) -/
  | fcDec
  /-- FC.SPLIT (R90) -/
  | fcSplit
  /-- FC.FLUSH (R92) -/
  | fcFlush
  /-- SC.INIT (R101) -/
  | scInit
  /-- SC.ENCRYPT (R105) -/
  | scEncrypt
  /-- SC.DECRYPT (R106) -/
  | scDecrypt
  /-- SC.ERASE (R107) -/
  | scErase
  /-- KD.DERIVE (R130) -/
  | kdDerive
deriving DecidableEq, Repr

end Sys2Proof
end

