-- ==== Sys2Proof/WellFormed.lean ====
section
/-!
DEFINITION. What must hold of an instruction and of the parameters. A command has no fields, so every
instruction is well formed (spec/30_encoding.md R52); the constraints the spec gives are those on the
parameters (spec/00_scope.md R6, R7).
-/

namespace Sys2Proof

/-- A command carries nothing that could be out of range (R52). -/
def Instr.wf (_ : Instr) : Bool := true

/-- The capacity is unbounded or at least `n`. -/
def Capacity.atLeast (n : Nat) : Capacity → Bool
  | .unbounded => true
  | .atMost m => n ≤ m

/-- R7: IBUF_CAP >= 44. -/
def Config.ibufCapOk (c : Config) : Bool := c.ibufCap.atLeast 44

/-- R7: OQ_PKTS_CAP >= 1. -/
def Config.oqPktsCapOk (c : Config) : Bool := c.oqPktsCap.atLeast 1

/-- R7: OQ_BYTES_CAP >= 44. -/
def Config.oqBytesCapOk (c : Config) : Bool := c.oqBytesCap.atLeast 44

/-- R6, R134: KDF_NONCE_POS is a set of 12 positions, each one of the 44 positions 0..43. -/
def Config.kdfNoncePosOk (c : Config) : Bool :=
  c.kdfNoncePos.length == 12 && decide c.kdfNoncePos.Nodup && c.kdfNoncePos.all (· < 44)

/-- The constraints on the parameters. CARRY_CAP >= 0 holds of every natural number (R7). -/
def Config.wf (c : Config) : Bool :=
  c.ibufCapOk && c.oqPktsCapOk && c.oqBytesCapOk && c.kdfNoncePosOk

end Sys2Proof
end

