-- ==== Sys2Proof/Decode.lean ====
section
/-!
DEFINITION. The command byte (spec/30_encoding.md R51, R53, R56): the decoder, total on every byte and
rejecting by name, and after it the encoder, written from the same table.
-/

namespace Sys2Proof

/-- Why a byte is no command. -/
inductive DecodeError where
  /-- The byte is one of the 245 that R56 calls illegal. -/
  | illegalCommand (w : Byte)
deriving DecidableEq, Repr

/-- The unit a command belongs to: column "unit" of R53. -/
inductive CoreUnit where
  | common
  | fcu
  | sce
  | kdr
deriving DecidableEq, Repr

/-- Field UNIT, bits 7:4 of a command byte (R51). A reading aid: the decoder does not use it. -/
def commandUnit (w : Byte) : BitVec 4 := w.extractLsb' 4 4

/-- Field FN, bits 3:0 of a command byte (R51). A reading aid. -/
def commandFn (w : Byte) : BitVec 4 := w.extractLsb' 0 4

/-- The number of a unit in field UNIT (R51). -/
def unitNumber : CoreUnit → BitVec 4
  | .common => 0x0
  | .fcu => 0x1
  | .sce => 0x2
  | .kdr => 0x3

/-- The opcode map of R53: the decoder matches the whole byte (mask 0xFF) against it (R51). -/
def opcodeMap : List (Byte × Instr) :=
  [(0x01, .bufClr),
   (0x10, .fcEnc), (0x11, .fcFrame), (0x12, .fcDec), (0x13, .fcSplit), (0x14, .fcFlush),
   (0x20, .scInit), (0x21, .scEncrypt), (0x22, .scDecrypt), (0x23, .scErase),
   (0x30, .kdDerive)]

/-- Decode one command byte: the row of R53 whose opcode it is, or a rejection by name (R56). -/
def decode (w : Byte) : Except DecodeError Instr :=
  match opcodeMap.find? (fun row => row.1 == w) with
  | some row => .ok row.2
  | none => .error (.illegalCommand w)

/-- The command byte of a command: column "opcode" of R53. -/
def encode : Instr → Byte
  | .bufClr => 0x01
  | .fcEnc => 0x10
  | .fcFrame => 0x11
  | .fcDec => 0x12
  | .fcSplit => 0x13
  | .fcFlush => 0x14
  | .scInit => 0x20
  | .scEncrypt => 0x21
  | .scDecrypt => 0x22
  | .scErase => 0x23
  | .kdDerive => 0x30

/-- The unit of a command: column "unit" of R53. -/
def instrUnit : Instr → CoreUnit
  | .bufClr => .common
  | .fcEnc | .fcFrame | .fcDec | .fcSplit | .fcFlush => .fcu
  | .scInit | .scEncrypt | .scDecrypt | .scErase => .sce
  | .kdDerive => .kdr

/-- The command byte whose bits are `w`, read as the opcode table numbers them; bits above `nbits` are 0. -/
def tableByte (nbits w : Nat) : Byte := BitVec.ofNat 8 (w % 2 ^ nbits)

/-- What the decoder reads from a table row's word. A command is one byte (R51), so a longer word is none. -/
def decodeTableWord (nbits w : Nat) : Option Instr :=
  if nbits ≤ 8 then (decode (tableByte nbits w)).toOption else none

end Sys2Proof
end

