-- ==== Sys2Proof/Machine/State.lean ====
section
/-!
DEFINITION. The state of CORE as plain data: the eleven elements of spec/10_state.md R10, the parameters (R28)
and the host's side of a run (spec/70_reset_and_hazards.md R203); the reasons a step can stop; the state after reset.
-/

namespace Sys2Proof.Machine

/-- The outcome codes of R160. The values 6 and 7 of the 3-bit field CODE "never occur" (R22), so they have
no name here. -/
inductive Code where
  /-- 0 OK -/
  | ok
  /-- 1 ERR_ILLEGAL -/
  | illegal
  /-- 2 ERR_OVERFLOW -/
  | overflow
  /-- 3 ERR_MALFORMED -/
  | malformed
  /-- 4 ERR_NOKEY -/
  | nokey
  /-- 5 ERR_PRECOND -/
  | precond
deriving DecidableEq, Repr

/-- The state of the stream cipher engine (R15 to R20; CL's Cipher State and the bit SC_VALID). -/
structure Cipher where
  /-- KEY (R15) -/
  key : Key
  /-- NONCE (R16) -/
  nonce : Nonce
  /-- CTR, "the counter value the next keystream block will be made from" (R17) -/
  ctr : W32
  /-- BLOCK, the current keystream block (R18) -/
  block : Block
  /-- OFF, an integer 0..64 (R19) -/
  off : Fin 65
  /-- SC_VALID (R20) -/
  valid : Bool
deriving DecidableEq, Repr

/-- The five transactions of R50. -/
inductive Transaction where
  /-- H_PUSH(b) -/
  | push (b : Byte)
  /-- H_CMD(w), any byte w -/
  | cmd (w : Byte)
  /-- H_POP -/
  | pop
  /-- H_STATUS -/
  | status
  /-- H_RESET -/
  | reset
deriving DecidableEq, Repr

/-- What a transaction gives back to the host (R50): "packets or NONE from H_POP, words from H_STATUS,
accepted from H_PUSH" (R203). H_CMD and H_RESET give nothing. -/
inductive Returned where
  /-- H_PUSH: accepted = 1 (true) or 0 (false) -/
  | accepted (a : Bool)
  /-- H_POP on a queue that is not empty -/
  | packet (p : Bytes)
  /-- H_POP on an empty queue: NONE, "distinct from the empty packet" (R72) -/
  | noPacket
  /-- H_STATUS -/
  | status (w : W32)
deriving DecidableEq, Repr

/-- The state. The first seven fields hold the eleven elements of R10; the last three are the model's own
(assumption log 1 and 3). -/
structure State where
  /-- IBUF (R12) -/
  ibuf : Bytes
  /-- OQ, head packet first (R13) -/
  oq : List Bytes
  /-- CARRY (R14) -/
  carry : Bytes
  /-- KEY, NONCE, CTR, BLOCK, OFF, SC_VALID (R15 to R20) -/
  sce : Cipher
  /-- CODE (R22) -/
  code : Code
  /-- FAULT, sticky (R23) -/
  fault : Bool
  /-- the parameters (R7, R28); no step changes them -/
  cfg : Config
  /-- transactions the host has issued and CORE has not yet performed, first issued first (R40) -/
  pending : List Transaction
  /-- what the transactions gave back, first given first (R203) -/
  returned : List Returned
deriving DecidableEq, Repr

/-- Why the machine could stop with a fault: no reason exists. "No behaviour of CORE is left as undefined by
this spec: every transaction in every state has one definite result" (spec/93_implementation_defined.md), and
the spec's own fault state (R167) is an ordinary next state with FAULT = 1. Safe: nothing raises it. -/
inductive Fault where
deriving DecidableEq, Repr

/-- Why an instruction could be refused. -/
inductive Refusal where
  /-- Raised by an arm of `exec` that has no meaning yet, and by nothing else; no arm is left so. Safe. -/
  | notModelled (mnemonic : String)
deriving DecidableEq, Repr

/-- The state right after H_RESET or power-on: every element at the value of R29, the reference parameters
(R7), nothing issued and nothing given back. -/
def State.reset : State where
  ibuf := []
  oq := []
  carry := []
  sce :=
    { key := Vector.replicate 32 0
      nonce := Vector.replicate 12 0
      ctr := 0
      block := Vector.replicate 64 0
      off := 64
      valid := false }
  code := .ok
  fault := false
  cfg := Config.reference
  pending := []
  returned := []

end Sys2Proof.Machine
end

