-- ==== Sys2Proof/Machine/Flags.lean ====
section
/-!
DEFINITION. CODE and STATUS: the numbers of the outcome codes (spec/60_exceptions.md R160) and the one
host-readable register, a view of the state (spec/10_state.md R22, spec/40_buffer_control.md R74).
-/

namespace Sys2Proof.Machine

/-- The 3-bit value of CODE (R160, R22). -/
def codeNumber : Code → Nat
  | .ok => 0
  | .illegal => 1
  | .overflow => 2
  | .malformed => 3
  | .nokey => 4
  | .precond => 5

/-- OQ_NE: "1 when OQ holds at least one packet, else 0 (computed from OQ, not stored)" (R22). -/
def oqNotEmpty (s : State) : Bool := !s.oq.isEmpty

/-- The STATUS word: `CODE + 8 FAULT + 16 SC_VALID + 32 OQ_NE` (R74). -/
def statusWord (s : State) : W32 :=
  BitVec.ofNat 32
    (codeNumber s.code + 8 * s.fault.toNat + 16 * s.sce.valid.toNat + 32 * (oqNotEmpty s).toNat)

/-- `CODE <- c`. -/
def setCode (c : Code) (s : State) : State := { s with code := c }

end Sys2Proof.Machine
end

