-- ==== Sys2Proof/Machine/Ops.lean ====
section
/-!
DEFINITION. The shared operations: capacities, the output queue, clearing buffers, ending a command with an
outcome, fault entry (the one exception of this machine) and reset (the way out of it).
-/

namespace Sys2Proof.Machine

/-- What one step or one command answers. -/
abbrev Result := Host.Outcome State Fault Refusal

/-- `n <= cap`; "an unbounded parameter makes its half true" (R8). -/
def admits : Capacity → Nat → Bool
  | .unbounded, _ => true
  | .atMost m, n => n ≤ m

/-- `bytes`: "the total length of the packets" of a list (R8). -/
def totalBytes (ps : List Bytes) : Nat := (ps.map List.length).sum

/-- `fits(OQ, L)` (R8). -/
def fits (s : State) (L : List Bytes) : Bool :=
  admits s.cfg.oqPktsCap (s.oq.length + L.length) &&
    admits s.cfg.oqBytesCap (totalBytes s.oq + totalBytes L)

/-- `OQ.push(p)` for each p of the list, in order, at the tail (R8, R13). -/
def pushPackets (ps : List Bytes) (s : State) : State := { s with oq := s.oq ++ ps }

/-- `clear(IBUF)`: IBUF becomes the empty string; the zeroing of its storage is no transition of the model
(R12, R25, assumption log 8). -/
def clearIbuf (s : State) : State := { s with ibuf := [] }

/-- `clear(CARRY)` (R14, R25). -/
def clearCarry (s : State) : State := { s with carry := [] }

/-- The erased engine: KEY, NONCE and BLOCK zero, CTR 0, OFF 64, SC_VALID 0 (R107, R167, R29). -/
def erasedCipher : Cipher where
  key := Vector.replicate 32 0
  nonce := Vector.replicate 12 0
  ctr := 0
  block := Vector.replicate 64 0
  off := 64
  valid := false

/-- Erase the cipher state (R107, R167). -/
def eraseCipher (s : State) : State := { s with sce := erasedCipher }

/-- A command's own rule, run only when FAULT = 0: "If FAULT = 1, the command is refused: no state element
changes, CODE included" (R54 step 1, R168 step 1, R169). -/
def command (s : State) (rule : State → State) : Result :=
  if s.fault then .next s else .next (rule s)

/-- An undefined command byte: "CODE <- ERR_ILLEGAL and nothing else changes" (R54 step 2, R56, R162). -/
def illegalCommand (s : State) : Result := command s (setCode .illegal)

/-- `raise ERR_OVERFLOW`: nothing changes but CODE (R160, R166). -/
def raiseOverflow (s : State) : State := setCode .overflow s

/-- `raise ERR_MALFORMED`: the operand is dropped (R160, R163). -/
def raiseMalformed (s : State) : State := setCode .malformed (clearIbuf s)

/-- `raise ERR_NOKEY`: the operand is dropped (R160, R165). -/
def raiseNokey (s : State) : State := setCode .nokey (clearIbuf s)

/-- End a command that consumed its operand with outcome OK: `clear(IBUF)`, `CODE <- OK` (R55). -/
def finish (s : State) : State := setCode .ok (clearIbuf s)

/-- The end of a command whose result packets are `ps`: ERR_OVERFLOW when they do not fit, otherwise push
them, consume the operand and report OK (R83, R87, R166). -/
def deliver (ps : List Bytes) (s : State) : State :=
  if fits s ps then finish (pushPackets ps s) else raiseOverflow s

/-- Fault entry, as one step: the cipher state erased, IBUF cleared, FAULT <- 1, CODE <- ERR_PRECOND; "OQ and
CARRY are kept" (R167). -/
def enterFault (s : State) : State :=
  setCode .precond { clearIbuf (eraseCipher s) with fault := true }

/-- H_RESET's effect: "every state element into the value of R29" (R190), the only way out of the fault
state. The parameters stay (R28), and so does the host's side of the run (assumption log 11). -/
def resetCore (s : State) : State :=
  { State.reset with cfg := s.cfg, pending := s.pending, returned := s.returned }

/-- Give a value back to the host (R50, R203). -/
def giveBack (r : Returned) (s : State) : State := { s with returned := s.returned ++ [r] }

end Sys2Proof.Machine
end

