-- ==== Sys2Proof/Machine/Operands.lean ====
section
/-!
DEFINITION. Operand forms and byte orders. The one operand a command can have is the whole of IBUF
(spec/30_encoding.md R52); here are the fields of the KN packet, the layout of the KDR message, and the words
read from and written to byte strings (spec/00_scope.md R8, spec/20_memory.md R32 to R36).
-/

namespace Sys2Proof.Machine

/-- The operand of a command: "the whole of IBUF at the moment the command is issued" (R52). -/
def operand (s : State) : Bytes := s.ibuf

/-- Byte `i` of a byte string. Callers stay inside the string; outside it the answer is 0 and no rule uses
it (assumption log 16). -/
def byteAt (bs : Bytes) (i : Nat) : Byte := bs.getD i 0

/-- The `n` bytes of `bs` from index `i`, as an array: `MemRead(B, i, n)` (R8). -/
def bytesFrom (bs : Bytes) (i n : Nat) : Vector Byte n := Vector.ofFn fun t => byteAt bs (i + t.val)

/-- The length of a KN packet, KDF_OUT_LEN = 44 (R6, R36). -/
def knLength : Nat := 44

/-- The key field of a KN packet, bytes 0..31 (R36, R101). -/
def knKey (kn : Bytes) : Key := bytesFrom kn 0 32

/-- The nonce field of a KN packet, bytes 32..43 (R36, R101). -/
def knNonce (kn : Bytes) : Nonce := bytesFrom kn 32 12

/-- The KN packet `key ++ nonce` (R36, R62). -/
def knPacket (key nonce : Bytes) : Bytes := key ++ nonce

/-- The KDR message M from the three encoded strings: concatenation, "no separators" (R61, R131). The host
builds it; CORE sees only M. -/
def kdrMessage (name passphrase deviceId : Bytes) : Bytes := name ++ passphrase ++ deviceId

/-- `le32(s, i)`: the little-endian 32-bit word at index `i` (R8). -/
def le32 (bs : Bytes) (i : Nat) : W32 :=
  byteAt bs (i + 3) ++ byteAt bs (i + 2) ++ byteAt bs (i + 1) ++ byteAt bs i

/-- `ser_le32(w)`: least significant byte first (R8). -/
def serLe32 (w : W32) : Bytes :=
  [w.extractLsb' 0 8, w.extractLsb' 8 8, w.extractLsb' 16 8, w.extractLsb' 24 8]

/-- `be64(s, i)`: the 64-bit word with `s[i]` as its most significant byte (R8). -/
def be64 (bs : Bytes) (i : Nat) : W64 :=
  byteAt bs i ++ byteAt bs (i + 1) ++ byteAt bs (i + 2) ++ byteAt bs (i + 3) ++
    byteAt bs (i + 4) ++ byteAt bs (i + 5) ++ byteAt bs (i + 6) ++ byteAt bs (i + 7)

/-- The bytes of a word, most significant byte first: `n` bytes of the low `8 n` bits. -/
def serBe {w : Nat} (n : Nat) (v : BitVec w) : Bytes :=
  (List.range n).map fun t => v.extractLsb' (8 * (n - 1 - t)) 8

/-- `ser_be64(w)` (R8). -/
def serBe64 (v : W64) : Bytes := serBe 8 v

/-- `ser_be128(w)` (R8). -/
def serBe128 (v : BitVec 128) : Bytes := serBe 16 v

/-- `rotl32(x, n)`, 0 < n < 32 (R8). -/
def rotl32 (x : W32) (n : Nat) : W32 := (x <<< n) ||| (x >>> (32 - n))

/-- `rotr64(x, n)`, 0 < n < 64 (R8). -/
def rotr64 (x : W64) (n : Nat) : W64 := (x >>> n) ||| (x <<< (64 - n))

/-- `shr64(x, n)`, the logical right shift (R8). -/
def shr64 (x : W64) (n : Nat) : W64 := x >>> n

end Sys2Proof.Machine
end

