-- ==== Sys2Proof/Machine/Buffer.lean ====
section
/-!
DEFINITION. BUF.CLR and the buffer transactions (spec/40_buffer_control.md).
-/

namespace Sys2Proof.Machine

/-- BUF.CLR: IBUF is discarded unread; nothing but IBUF and CODE is touched (R73). -/
def execBufClr (s : State) : Result := command s finish

/-- H_PUSH(b): refused, with no change, in the fault state or when IBUF is full; otherwise b is appended (R71). -/
def hostPush (b : Byte) (s : State) : State :=
  if s.fault || !admits s.cfg.ibufCap (s.ibuf.length + 1) then giveBack (.accepted false) s
  else giveBack (.accepted true) { s with ibuf := s.ibuf ++ [b] }

/-- H_POP: removes the head packet of OQ and returns it whole, or returns NONE; works in the fault state (R72). -/
def hostPop (s : State) : State :=
  match s.oq with
  | [] => giveBack .noPacket s
  | p :: ps => giveBack (.packet p) { s with oq := ps }

/-- H_STATUS: returns STATUS and changes nothing else; works in every state (R74). -/
def hostStatus (s : State) : State := giveBack (.status (statusWord s)) s

/-- H_RESET: accepted in every state (R190). -/
def hostReset (s : State) : State := resetCore s

end Sys2Proof.Machine
end

