-- ==== Sys2Proof/Machine/FrameCodec.lean ====
section
/-!
DEFINITION. The frame codec unit (spec/41_frame_codec.md): the pure functions `encode` (R81) and `decode`
(R85, R86), the split of the stream at zero bytes (R90), and FC.ENC, FC.FRAME, FC.DEC, FC.SPLIT, FC.FLUSH.
-/

namespace Sys2Proof.Machine

/-- MAX_CODE = 255, the code byte of a maximal run (R6). -/
def maxCode : Nat := 255

/-- `out[cp] <- code`: overwrite the open run's placeholder (R81). The triple is (out, cp, code). -/
def encodeSeal (e : Bytes × Nat × Nat) : Bytes := e.1.set e.2.1 (BitVec.ofNat 8 e.2.2)

/-- `out[cp] <- code`, then `cp <- |out|; out <- out ++ [0x00]; code <- 1`: close the open run and start a new
one (R81). -/
def encodeClose (e : Bytes × Nat × Nat) : Bytes × Nat × Nat :=
  (encodeSeal e ++ [0], (encodeSeal e).length, 1)

/-- One iteration of R81's loop on the payload byte `b`. -/
def encodeStep (e : Bytes × Nat × Nat) (b : Byte) : Bytes × Nat × Nat :=
  if b = 0 then encodeClose e
  else
    let grown := (e.1 ++ [b], e.2.1, e.2.2 + 1)
    if e.2.2 + 1 = maxCode then encodeClose grown else grown

/-- `encode(P)` (R81): out starts as the placeholder of the first code byte, cp = 0, code = 1; at the end the
last run is closed. -/
def fcEncode (P : Bytes) : Bytes := encodeSeal (P.foldl encodeStep ([0], 0, 1))

/-- R85's loop on the bytes not yet read, with the output so far; `none` is MALFORMED. Each iteration reads
at least the code byte, so `fuel` = the number of bytes is enough. -/
def decodeLoop : Nat → Bytes → Bytes → Option Bytes
  | _, [], out => some out
  | 0, _ :: _, _ => none
  | fuel + 1, code :: rest, out =>
    let k := code.toNat - 1
    if code = 0 then none
    else if rest.length < k then none
    else
      let left := rest.drop k
      let zero : Bytes := if code.toNat ≠ maxCode ∧ left ≠ [] then [0] else []
      decodeLoop fuel left (out ++ rest.take k ++ zero)

/-- `decode(S)`: the payload, or `none` for MALFORMED (R85, R86). -/
def fcDecode (S : Bytes) : Option Bytes := decodeLoop S.length S []

/-- R90's writing of B as p_0 ++ [00] ++ p_1 ++ ... ++ [00] ++ p_z: the complete segments p_0 .. p_(z-1) and
the rest p_z. -/
def splitSegments : Bytes → List Bytes × Bytes
  | [] => ([], [])
  | b :: B =>
    let (complete, rest) := splitSegments B
    if b = delim then ([] :: complete, rest)
    else
      match complete with
      | [] => ([], b :: rest)
      | p :: ps => ((b :: p) :: ps, rest)

/-- FC.ENC (R83). -/
def execFcEnc (s : State) : Result :=
  command s fun s => deliver [fcEncode (operand s)] s

/-- FC.FRAME: the stuffed form and the delimiter as one packet (R84). -/
def execFcFrame (s : State) : Result :=
  command s fun s => deliver [fcEncode (operand s) ++ [delim]] s

/-- FC.DEC: MALFORMED is tested before capacity (R87, R168). -/
def execFcDec (s : State) : Result :=
  command s fun s =>
    match fcDecode (operand s) with
    | none => raiseMalformed s
    | some r => deliver [r] s

/-- The work of FC.SPLIT (R90): ERR_OVERFLOW when the rest does not fit CARRY or the segments do not fit OQ;
otherwise the segments are pushed in stream order and CARRY becomes the rest. -/
def splitChunk (s : State) : State :=
  let (complete, rest) := splitSegments (s.carry ++ operand s)
  if !admits s.cfg.carryCap rest.length || !fits s complete then raiseOverflow s
  else finish { pushPackets complete s with carry := rest }

/-- FC.SPLIT (R90). -/
def execFcSplit (s : State) : Result := command s splitChunk

/-- FC.FLUSH: drops the partial segment; IBUF is neither read nor changed (R92). -/
def execFcFlush (s : State) : Result := command s fun s => setCode .ok (clearCarry s)

end Sys2Proof.Machine
end

