-- ==== Sys2Proof/Machine/Hash.lean ====
section
/-!
DEFINITION. HASH_FN (spec/43_key_derivation.md R135): SHA-512 (R136 to R141, which the spec marks "from general
knowledge", assumption log 5), and the choice of another function.
-/

namespace Sys2Proof.Machine

/-- `z = (111 - |M|) mod 128`, the number of zero bytes of the padding (R136). -/
def padZeros (len : Nat) : Nat := ((111 - (len : Int)) % 128).toNat

/-- The padded message `M ++ [0x80] ++ zeros(z) ++ ser_be128(8 |M|)` (R136). -/
def shaPad (M : Bytes) : Bytes :=
  M ++ [0x80] ++ zeros (padZeros M.length) ++ serBe128 (BitVec.ofNat 128 (8 * M.length))

/-- The first `n` blocks of 128 bytes of a byte string (R136). -/
def blocks128 : Nat → Bytes → List Bytes
  | 0, _ => []
  | n + 1, bs => bs.take 128 :: blocks128 n (bs.drop 128)

/-- The N blocks of the padded message, `N = (|M| + 17 + 127) div 128` (R136). -/
def messageBlocks (M : Bytes) : List Bytes := blocks128 ((M.length + 17 + 127) / 128) (shaPad M)

/-- The initial chaining value H[0..7] (R137). -/
def shaInitial : Vector W64 8 :=
  #v[0x6a09e667f3bcc908, 0xbb67ae8584caa73b, 0x3c6ef372fe94f82b, 0xa54ff53a5f1d36f1,
     0x510e527fade682d1, 0x9b05688c2b3e6c1f, 0x1f83d9abfb41bd6b, 0x5be0cd19137e2179]

/-- The round constants, eight to a row: row r holds K[8 r .. 8 r + 7] (R138). -/
def shaConstantRows : List (List W64) :=
  [[0x428a2f98d728ae22, 0x7137449123ef65cd, 0xb5c0fbcfec4d3b2f, 0xe9b5dba58189dbbc,
    0x3956c25bf348b538, 0x59f111f1b605d019, 0x923f82a4af194f9b, 0xab1c5ed5da6d8118],
   [0xd807aa98a3030242, 0x12835b0145706fbe, 0x243185be4ee4b28c, 0x550c7dc3d5ffb4e2,
    0x72be5d74f27b896f, 0x80deb1fe3b1696b1, 0x9bdc06a725c71235, 0xc19bf174cf692694],
   [0xe49b69c19ef14ad2, 0xefbe4786384f25e3, 0x0fc19dc68b8cd5b5, 0x240ca1cc77ac9c65,
    0x2de92c6f592b0275, 0x4a7484aa6ea6e483, 0x5cb0a9dcbd41fbd4, 0x76f988da831153b5],
   [0x983e5152ee66dfab, 0xa831c66d2db43210, 0xb00327c898fb213f, 0xbf597fc7beef0ee4,
    0xc6e00bf33da88fc2, 0xd5a79147930aa725, 0x06ca6351e003826f, 0x142929670a0e6e70],
   [0x27b70a8546d22ffc, 0x2e1b21385c26c926, 0x4d2c6dfc5ac42aed, 0x53380d139d95b3df,
    0x650a73548baf63de, 0x766a0abb3c77b2a8, 0x81c2c92e47edaee6, 0x92722c851482353b],
   [0xa2bfe8a14cf10364, 0xa81a664bbc423001, 0xc24b8b70d0f89791, 0xc76c51a30654be30,
    0xd192e819d6ef5218, 0xd69906245565a910, 0xf40e35855771202a, 0x106aa07032bbd1b8],
   [0x19a4c116b8d2d0c8, 0x1e376c085141ab53, 0x2748774cdf8eeb99, 0x34b0bcb5e19b48a8,
    0x391c0cb3c5c95a63, 0x4ed8aa4ae3418acb, 0x5b9cca4f7763e373, 0x682e6ff3d6b2b8a3],
   [0x748f82ee5defb2fc, 0x78a5636f43172f60, 0x84c87814a1f0ab72, 0x8cc702081a6439ec,
    0x90befffa23631e28, 0xa4506cebde82bde9, 0xbef9a3f7b2c67915, 0xc67178f2e372532b],
   [0xca273eceea26619c, 0xd186b8c721c0c207, 0xeada7dd6cde0eb1e, 0xf57d4f7fee6ed178,
    0x06f067aa72176fba, 0x0a637dc5a2c898a6, 0x113f9804bef90dae, 0x1b710b35131c471b],
   [0x28db77f523047d84, 0x32caab7b40c72493, 0x3c9ebe0a15c9bebc, 0x431d67c49c100d4c,
    0x4cc5d4becb3e42b6, 0x597f299cfc657e2a, 0x5fcb6fab3ad6faec, 0x6c44198c4a475817]]

/-- The eighty round constants K[0..79] (R138). -/
def shaConstants : List W64 := shaConstantRows.flatten

/-- Ch (R139). -/
def shaCh (x y z : W64) : W64 := (x &&& y) ^^^ (~~~x &&& z)

/-- Maj (R139). -/
def shaMaj (x y z : W64) : W64 := (x &&& y) ^^^ (x &&& z) ^^^ (y &&& z)

/-- BSIG0 (R139). -/
def shaBsig0 (x : W64) : W64 := rotr64 x 28 ^^^ rotr64 x 34 ^^^ rotr64 x 39

/-- BSIG1 (R139). -/
def shaBsig1 (x : W64) : W64 := rotr64 x 14 ^^^ rotr64 x 18 ^^^ rotr64 x 41

/-- SSIG0 (R139). -/
def shaSsig0 (x : W64) : W64 := rotr64 x 1 ^^^ rotr64 x 8 ^^^ shr64 x 7

/-- SSIG1 (R139). -/
def shaSsig1 (x : W64) : W64 := rotr64 x 19 ^^^ rotr64 x 61 ^^^ shr64 x 6

/-- Word `j` of a schedule under construction. -/
def scheduleAt (W : List W64) (j : Nat) : W64 := W.getD j 0

/-- `W[0..15]` of a block (R136). -/
def blockWords (block : Bytes) : List W64 := (List.range 16).map fun j => be64 block (8 * j)

/-- `W[j] <- SSIG1(W[j-2]) +64 W[j-7] +64 SSIG0(W[j-15]) +64 W[j-16]`, appended (R140). -/
def extendSchedule (W : List W64) (j : Nat) : List W64 :=
  W ++ [shaSsig1 (scheduleAt W (j - 2)) + scheduleAt W (j - 7) + shaSsig0 (scheduleAt W (j - 15)) +
    scheduleAt W (j - 16)]

/-- The message schedule W[0..79] of a block (R140). -/
def messageSchedule (block : Bytes) : List W64 :=
  (List.range' 16 64).foldl extendSchedule (blockWords block)

/-- One round on the working variables (a, b, c, d, e, f, g, h), with K[j] and W[j]; the eight assignments
"happen together" (R140). -/
def shaRound (v : Vector W64 8) (kw : W64 × W64) : Vector W64 8 :=
  let t1 := v[7] + shaBsig1 v[4] + shaCh v[4] v[5] v[6] + kw.1 + kw.2
  let t2 := shaBsig0 v[0] + shaMaj v[0] v[1] v[2]
  #v[t1 + t2, v[0], v[1], v[2], v[3] + t1, v[4], v[5], v[6]]

/-- One block: the eighty rounds, then `H[i] <- H[i] +64` the working variable (R140). -/
def shaCompress (H : Vector W64 8) (block : Bytes) : Vector W64 8 :=
  let v := (shaConstants.zip (messageSchedule block)).foldl shaRound H
  Vector.ofFn fun i => H[i] + v[i]

/-- The digest bytes `ser_be64(H[0]) ++ ... ++ ser_be64(H[7])` (R141, R35). -/
def digestBytes (H : Vector W64 8) : Digest := bytesFrom (H.toList.flatMap serBe64) 0 64

/-- SHA-512 of a message (R136 to R141). Where 8 |M| does not fit the 128-bit length field the spec states no
digest, and the value is free (DESIGN CHOICE, assumption log 6). -/
def sha512 (M : Bytes) : Digest :=
  if 8 * M.length < 2 ^ 128 then digestBytes ((messageBlocks M).foldl shaCompress shaInitial)
  else Config.longMessageDigest M

/-- HASH_FN of the configuration (R135). -/
def hashFnApply : HashFn → Bytes → Digest
  | .sha512, M => sha512 M
  | .other n, M => Config.otherHashFn n M

end Sys2Proof.Machine
end

