-- ==== Sys2Proof/Machine/KeyDerivation.lean ====
section
/-!
DEFINITION. The key derivation routine (spec/43_key_derivation.md): the walk (R133), the partition (R134),
`derive` (R132) and KD.DERIVE (R130). It reads and writes no cipher state (R130, R143 (e)).
-/

namespace Sys2Proof.Machine

/-- KDF_STEPS = KDF_OUT_LEN = 44 (R6). -/
def kdfSteps : Nat := 44

/-- `d[n mod 64]` (R133). -/
def digestAt (d : Digest) (n : Nat) : Byte := d[n % 64]'(Nat.mod_lt _ (by decide))

/-- The iterations `i`, `i+1`, ... of R133's loop, `n` of them, from the cursor `c`: the bytes they write to
`out`. In step c the index uses the cursor of steps a and b. -/
def walkFrom (d : Digest) : (n i c : Nat) → Bytes
  | 0, _, _ => []
  | n + 1, i, c =>
    let idx := (digestAt d c).toNat
    digestAt d (c + idx) :: walkFrom d n (i + 1) (c + (digestAt d (c + idx + i)).toNat)

/-- `walk(d)`: the 44 bytes of `out`, from cursor KDF_C0, for i = 1..44 (R133). -/
def walk (c0 : Nat) (d : Digest) : Bytes := walkFrom d kdfSteps 1 c0

/-- The 44 output positions in the order they are visited, increasing (R134). -/
def visitedPositions : List Nat := List.range kdfSteps

/-- The partition (R134): the bytes at the positions of the index set, in visiting order, are the nonce; all
others, in visiting order, are the key. -/
def partition (noncePos : List Nat) (out : Bytes) : Bytes × Bytes :=
  ((visitedPositions.filter (fun p => !noncePos.contains p)).map (byteAt out),
   (visitedPositions.filter (fun p => noncePos.contains p)).map (byteAt out))

/-- `derive(M) -> (key, nonce)` (R132). -/
def derive (cfg : Config) (M : Bytes) : Bytes × Bytes :=
  partition cfg.kdfNoncePos (walk cfg.kdfC0 (hashFnApply cfg.hashFn M))

/-- The work of KD.DERIVE (R130). -/
def deriveOperand (s : State) : State :=
  if !fits s [zeros knLength] then raiseOverflow s
  else
    let (key, nonce) := derive s.cfg (operand s)
    finish (pushPackets [knPacket key nonce] s)

/-- KD.DERIVE (R130). -/
def execKdDerive (s : State) : Result := command s deriveOperand

end Sys2Proof.Machine
end

