-- ==== Sys2Proof/Machine/BlockTransform.lean ====
section
/-!
DEFINITION. BLOCK_FN (spec/42_stream_cipher.md R110): the default, the ChaCha20 block function (R111 to R114,
which the spec marks "from general knowledge", assumption log 4), and the choice of another function.
-/

namespace Sys2Proof.Machine

/-- The sixteen words of the block transform (R111). -/
abbrev Words16 := Vector W32 16

/-- The input words s[0..15]: four constants, eight key words, the counter, three nonce words (R111, R34). -/
def chachaInput (key : Key) (nonce : Nonce) (ctr : W32) : Words16 :=
  let k := key.toList
  let n := nonce.toList
  #v[0x61707865, 0x3320646e, 0x79622d32, 0x6b206574,
     le32 k 0, le32 k 4, le32 k 8, le32 k 12,
     le32 k 16, le32 k 20, le32 k 24, le32 k 28,
     ctr, le32 n 0, le32 n 4, le32 n 8]

/-- The quarter round on four words: R112's four lines, each using the values written before it. -/
def quarterWords (a b c d : W32) : W32 × W32 × W32 × W32 :=
  let a := a + b
  let d := rotl32 (d ^^^ a) 16
  let c := c + d
  let b := rotl32 (b ^^^ c) 12
  let a := a + b
  let d := rotl32 (d ^^^ a) 8
  let c := c + d
  let b := rotl32 (b ^^^ c) 7
  (a, b, c, d)

/-- `QR(w, a, b, c, d)`: update four words of the array in place (R112). -/
def quarterRound (w : Words16) (a b c d : Fin 16) : Words16 :=
  let q := quarterWords w[a] w[b] w[c] w[d]
  (((w.set a q.1).set b q.2.1).set c q.2.2.1).set d q.2.2.2

/-- The column line of the double round (R113). -/
def columnRound (w : Words16) : Words16 :=
  quarterRound (quarterRound (quarterRound (quarterRound w 0 4 8 12) 1 5 9 13) 2 6 10 14) 3 7 11 15

/-- The diagonal line of the double round (R113). -/
def diagonalRound (w : Words16) : Words16 :=
  quarterRound (quarterRound (quarterRound (quarterRound w 0 5 10 15) 1 6 11 12) 2 7 8 13) 3 4 9 14

/-- `n` double rounds (R113). -/
def doubleRounds : Nat → Words16 → Words16
  | 0, w => w
  | n + 1, w => doubleRounds n (diagonalRound (columnRound w))

/-- `o[j] = w[j] +32 s[j]` (R114). -/
def chachaOutput (s : Words16) : Words16 :=
  let w := doubleRounds 10 s
  Vector.ofFn fun j => w[j] + s[j]

/-- The 64 bytes `ser_le32(o[0]) ++ ... ++ ser_le32(o[15])` (R114, R34). -/
def serializeWords (o : Words16) : Block :=
  bytesFrom (o.toList.flatMap serLe32) 0 64

/-- The ChaCha20 block function (R111 to R114). -/
def chachaBlock (key : Key) (nonce : Nonce) (ctr : W32) : Block :=
  serializeWords (chachaOutput (chachaInput key nonce ctr))

/-- BLOCK_FN of the configuration (R110). -/
def blockFnApply : BlockFn → Key → Nonce → W32 → Block
  | .chacha20, key, nonce, ctr => chachaBlock key nonce ctr
  | .other n, key, nonce, ctr => Config.otherBlockFn n key nonce ctr

end Sys2Proof.Machine
end

