-- ==== Sys2Proof/Machine/StreamCipher.lean ====
section
/-!
DEFINITION. The stream cipher engine (spec/42_stream_cipher.md): the per-byte step and `xor_stream` (R104), and
SC.INIT, SC.ENCRYPT, SC.DECRYPT, SC.ERASE.
-/

namespace Sys2Proof.Machine

/-- A fresh keystream block: `BLOCK <- BLOCK_FN(KEY, NONCE, CTR); CTR <- (CTR + 1) mod 2^32; OFF <- 0` (R104, R109). -/
def freshBlock (bf : BlockFn) (c : Cipher) : Cipher :=
  { c with block := blockFnApply bf c.key c.nonce c.ctr, ctr := c.ctr + 1, off := 0 }

/-- `if OFF = 64` compute a fresh block (R104): the block is computed lazily, just before its first use. -/
def ensureBlock (bf : BlockFn) (c : Cipher) : Cipher :=
  if c.off = 64 then freshBlock bf c else c

/-- After the test `OFF = 64` the offset is an index of BLOCK: "OFF never exceeds 64" (R19). -/
theorem ensureBlock_off_lt (bf : BlockFn) (c : Cipher) : (ensureBlock bf c).off.val < 64 := by
  unfold ensureBlock
  split
  · exact (by decide : (0 : Fin 65).val < 64)
  · have := c.off.isLt
    rename_i h
    have : c.off.val ≠ 64 := fun e => h (Fin.ext e)
    omega

/-- The keystream byte a data byte meets and the engine after it: `BLOCK[OFF]`, then `OFF <- OFF + 1` (R104).
"OFF + 1 is an integer in 1..64 and never wraps" (R115). -/
def nextKeystreamByte (bf : BlockFn) (c : Cipher) : Byte × Cipher :=
  let c' := ensureBlock bf c
  have h : c'.off.val < 64 := ensureBlock_off_lt bf c
  (c'.block[c'.off.val], { c' with off := ⟨c'.off.val + 1, by omega⟩ })

/-- `xor_stream(X)` (R104): the output bytes and the engine after them. -/
def xorStream (bf : BlockFn) : Cipher → Bytes → Bytes × Cipher
  | c, [] => ([], c)
  | c, x :: X =>
    let (k, c1) := nextKeystreamByte bf c
    let (Y, c2) := xorStream bf c1 X
    ((x ^^^ k) :: Y, c2)

/-- The cipher state SC.INIT loads from a KN packet: CTR 0, BLOCK zeros, OFF 64, SC_VALID 1 (R101). -/
def loadedCipher (kn : Bytes) : Cipher where
  key := knKey kn
  nonce := knNonce kn
  ctr := 0
  block := Vector.replicate 64 0
  off := 64
  valid := true

/-- The work of SC.INIT (R101): a length that is not 44 is the precondition failure of R167. -/
def initCipher (s : State) : State :=
  if (operand s).length = knLength then finish { s with sce := loadedCipher (operand s) }
  else enterFault s

/-- SC.INIT, allowed also on a loaded engine (R101, R102). -/
def execScInit (s : State) : Result := command s initCipher

/-- The one operation behind SC.ENCRYPT and SC.DECRYPT (R105): no key is tested before room, and room before
any keystream is consumed (R168). -/
def cryptOperand (s : State) : State :=
  if !s.sce.valid then raiseNokey s
  else if !fits s [zeros (operand s).length] then raiseOverflow s
  else
    let (Y, c) := xorStream s.cfg.blockFn s.sce (operand s)
    finish (pushPackets [Y] { s with sce := c })

/-- SC.ENCRYPT (R105). -/
def execScEncrypt (s : State) : Result := command s cryptOperand

/-- SC.DECRYPT: "identical operation" (R106). -/
def execScDecrypt (s : State) : Result := command s cryptOperand

/-- SC.ERASE: IBUF and OQ are not touched (R107). -/
def execScErase (s : State) : Result := command s fun s => setCode .ok (eraseCipher s)

end Sys2Proof.Machine
end

