-- ==== Sys2Proof/Machine/Dispatch.lean ====
section
/-!
DEFINITION. The dispatch of a decoded command to its meaning (spec/30_encoding.md R53, R54 step 3).
-/

namespace Sys2Proof.Machine

def exec (i : Instr) (s : State) : Host.Outcome State Fault Refusal :=
  match i with
  | .bufClr => Sys2Proof.Machine.execBufClr s
  | .fcEnc => Sys2Proof.Machine.execFcEnc s
  | .fcFrame => Sys2Proof.Machine.execFcFrame s
  | .fcDec => Sys2Proof.Machine.execFcDec s
  | .fcSplit => Sys2Proof.Machine.execFcSplit s
  | .fcFlush => Sys2Proof.Machine.execFcFlush s
  | .scInit => Sys2Proof.Machine.execScInit s
  | .scEncrypt => Sys2Proof.Machine.execScEncrypt s
  | .scDecrypt => Sys2Proof.Machine.execScDecrypt s
  | .scErase => Sys2Proof.Machine.execScErase s
  | .kdDerive => Sys2Proof.Machine.execKdDerive s

end Sys2Proof.Machine
end

