-- ==== Sys2Proof/Machine/Transactions.lean ====
section
/-!
DEFINITION. The five host transactions (spec/30_encoding.md R50) on the state, and taking the next one from the
transactions the host has issued (spec/20_memory.md R40).
-/

namespace Sys2Proof.Machine

/-- H_CMD(w) (R54): decode the byte and run the command, or answer ERR_ILLEGAL. Both are refused in the fault
state before anything else (`command`). -/
def hostCommand (w : Byte) (s : State) : Result :=
  match decode w with
  | .ok i => exec i s
  | .error _ => illegalCommand s

/-- Perform one transaction, whole (R39, R50). -/
def perform (t : Transaction) (s : State) : Result :=
  match t with
  | .push b => .next (hostPush b s)
  | .cmd w => hostCommand w s
  | .pop => .next (hostPop s)
  | .status => .next (hostStatus s)
  | .reset => .next (hostReset s)

/-- Perform the oldest transaction not yet performed (R40). With none issued nothing changes: "CORE never acts
on its own: no state changes between transactions" (R41). -/
def performNext (s : State) : Result :=
  match s.pending with
  | [] => .next s
  | t :: ts => perform t { s with pending := ts }

/-- The host issues H_CMD with the byte of a table word as the very next transaction (assumption log 2). -/
def issueTableWord (s : State) (nbits w : Nat) : State :=
  { s with pending := .cmd (tableByte nbits w) :: s.pending }

end Sys2Proof.Machine
end

