-- ==== Sys2Proof/Machine/Step.lean ====
section
/-!
DEFINITION. One step: one host transaction, performed whole (spec/20_memory.md R39, R40).
-/

namespace Sys2Proof.Machine

/-- One step performs the next issued transaction. -/
def step (s : State) : Host.Outcome State Fault Refusal := performNext s

/-- The state in which the next transaction is H_CMD with this table word's byte. CORE has no program and no
program counter (R11): what stands where the step takes its next command is the host's next transaction. -/
def State.withFetchWord (s : State) (nbits w : Nat) : State := issueTableWord s nbits w

end Sys2Proof.Machine
end

