-- ==== Sys2Proof/Machine/Listing.lean ====
section
/-!
DEFINITION. The listing syntax of host programs (spec/30_encoding.md R57): one transaction per line, the
pseudo-lines and their expansions, and the transactions a line stands for. "The encoding of a program is the
sequence of its transactions; the only encoded field is the command byte of each CMD line" (R57).
-/

namespace Sys2Proof.Machine

/-- A line of a listing (R57). An item `b*n` of a PUSH line is the pair (b, n); a plain byte is (b, 1). -/
inductive Line where
  /-- `PUSH b0 b1 ...` -/
  | push (items : List (Byte × Nat))
  /-- `CMD <mnemonic>` -/
  | cmd (i : Instr)
  /-- `CMD 0xNN`, a raw byte -/
  | cmdRaw (w : Byte)
  /-- `POP -> name` -/
  | pop (name : String)
  /-- `STATUS -> name` -/
  | status (name : String)
  /-- `RESET` -/
  | reset
  /-- `; text` -/
  | comment (text : String)
  /-- pseudo-line `PUSHS "text"`, with the characters of the text -/
  | pushs (text : List Char)
  /-- pseudo-line `PUSHP name` -/
  | pushp (name : String)
  /-- pseudo-line `RELAY` -/
  | relay
  /-- pseudo-line `DO <mnemonic> b0 b1 ... -> name` -/
  | doCmd (i : Instr) (items : List (Byte × Nat)) (name : String)
deriving DecidableEq, Repr

/-- The mnemonics of R53, as the opcode table spells them. -/
def mnemonicOf : Instr → String
  | .bufClr => "BUF.CLR"
  | .fcEnc => "FC.ENC"
  | .fcFrame => "FC.FRAME"
  | .fcDec => "FC.DEC"
  | .fcSplit => "FC.SPLIT"
  | .fcFlush => "FC.FLUSH"
  | .scInit => "SC.INIT"
  | .scEncrypt => "SC.ENCRYPT"
  | .scDecrypt => "SC.DECRYPT"
  | .scErase => "SC.ERASE"
  | .kdDerive => "KD.DERIVE"

/-- The bytes of the items of a PUSH line: `b*n` "stands for n pushes of the byte b" (R57). -/
def itemBytes (items : List (Byte × Nat)) : Bytes := items.flatMap fun i => List.replicate i.2 i.1

/-- The text is ASCII. R57 speaks only of "the ASCII bytes of text": what PUSHS does with any other character it
leaves open, and the model gives such a line no meaning (DESIGN CHOICE, assumption log 18). -/
def isAscii (text : List Char) : Bool := text.all fun c => decide (c.toNat < 128)

/-- The ASCII bytes of an ASCII text, in order (R57, PUSHS). -/
def asciiBytes (text : List Char) : Bytes := text.map fun c => BitVec.ofNat 8 c.toNat

/-- The pseudo-lines' expansions (R57); every other line stands for itself, and so does a PUSHS of a text that is
not ASCII, which then has no transactions (assumption log 18). -/
def expandLine : Line → List Line
  | .pushs text =>
    if isAscii text then [.push ((asciiBytes text).map fun b => (b, 1))] else [.pushs text]
  | .relay => [.pop "t", .pushp "t"]
  | .doCmd i items name => [.push items, .cmd i, .pop name]
  | l => [l]

/-- The transactions of an expanded line, given the packets named so far; `none` where PUSHP names no packet and
for a PUSHS that did not expand (R57 gives such a line no meaning, assumption log 18). -/
def lineTransactions (names : List (String × Bytes)) : Line → Option (List Transaction)
  | .push items => some ((itemBytes items).map .push)
  | .cmd i => some [.cmd (encode i)]
  | .cmdRaw w => some [.cmd w]
  | .pop _ => some [.pop]
  | .status _ => some [.status]
  | .reset => some [.reset]
  | .comment _ => some []
  | .pushp name => (names.lookup name).map fun p => p.map .push
  | .pushs _ => none
  | .relay => none
  | .doCmd _ _ _ => none

/-- Perform transactions one after another (R203). -/
def performAll : List Transaction → State → Result
  | [], s => .next s
  | t :: ts, s =>
    match perform t s with
    | .next s' => performAll ts s'
    | .fault r => .fault r
    | .refused r => .refused r

/-- The packet names after a line: `POP -> name` calls "the returned packet (or NONE)" by the name (R57), so after
NONE the name is no packet's. -/
def namesAfter (l : Line) (names : List (String × Bytes)) (s : State) : List (String × Bytes) :=
  match l, s.returned.getLast? with
  | .pop name, some (.packet p) => (name, p) :: names
  | .pop name, _ => names.filter fun n => n.1 != name
  | _, _ => names

/-- Run expanded lines from a state with the packets named so far; the answer is `none` where a line has no
meaning or a transaction does not complete. -/
def runLines : List Line → List (String × Bytes) → State → Option (List (String × Bytes) × State)
  | [], names, s => some (names, s)
  | l :: ls, names, s =>
    match lineTransactions names l with
    | none => none
    | some ts =>
      match performAll ts s with
      | .next s' => runLines ls (namesAfter l names s') s'
      | .fault _ => none
      | .refused _ => none

/-- Run a host program, pseudo-lines expanded (R57). -/
def runListing (ls : List Line) (s : State) : Option (List (String × Bytes) × State) :=
  runLines (ls.flatMap expandLine) [] s

end Sys2Proof.Machine
end

