-- ==== Sys2Proof/Safety.lean ====
section
/-!
DEFINITION. The terms claims are stated in: runs of transactions (spec/70_reset_and_hazards.md R203), the
invariants of the state (spec/10_state.md R13, R14, R21, R23), well-formed stuffed forms (spec/30_encoding.md
R58), the keystream (spec/42_stream_cipher.md R103).
-/

namespace Sys2Proof.Machine

/-! ## Runs -/

/-- The run that performs the transactions `ts` on `s`, by the machine's own steps (R203). Its end state is final
only as `State.Final` says. -/
def after (s : State) (ts : List Transaction) : Result :=
  Host.Core.run Sys2Proof.core ts.length { s with pending := ts }

/-- "An end state with FAULT = 1 is not final" (R203, R169). -/
def State.Final (s : State) : Prop := s.fault = false

/-- What a claim may use of the end state of a run (R203, R169). -/
inductive EndView where
  /-- The end state is final: all of it. -/
  | final (s : State)
  /-- FAULT = 1: "nothing should be concluded from it beyond the packets H_POP still returns", head packet first. -/
  | notFinal (packets : List Bytes)
deriving DecidableEq, Repr

/-- The end state of a run as claims may use it (R203). -/
def State.endView (s : State) : EndView := if s.fault then .notFinal s.oq else .final s

/-- The run of `ts` from `s`, its end state as claims may use it (R203). A step of this machine always answers a
next state, so the last two cases do not arise. -/
def runView (s : State) (ts : List Transaction) : Option EndView :=
  match after s ts with
  | .next t => some t.endView
  | .fault _ => none
  | .refused _ => none

/-- An end state is clean "when IBUF, OQ and CARRY are empty and SC_VALID = 0" (R203). Clean says nothing of FAULT:
whether the end state is final is `State.Final`. -/
def State.Clean (s : State) : Prop :=
  s.ibuf = [] ∧ s.oq = [] ∧ s.carry = [] ∧ s.sce.valid = false

/-- The host delivers one chunk: it pushes the bytes and issues FC.SPLIT (R90). -/
def feedChunk (chunk : Bytes) : List Transaction := chunk.map .push ++ [.cmd 0x13]

/-- The host delivers chunks one after another. -/
def feedChunks (chunks : List Bytes) : List Transaction := chunks.flatMap feedChunk

/-- All four capacities are unbounded, as in the reference instantiation (R7). -/
def AllUnbounded (c : Config) : Prop :=
  c.ibufCap = .unbounded ∧ c.oqPktsCap = .unbounded ∧ c.oqBytesCap = .unbounded ∧ c.carryCap = .unbounded

/-! ## Invariants -/

/-- The buffers hold no more than their capacities (R12, R13, R14). -/
def State.WithinCaps (s : State) : Prop :=
  admits s.cfg.ibufCap s.ibuf.length = true ∧
    admits s.cfg.oqPktsCap s.oq.length = true ∧
    admits s.cfg.oqBytesCap (totalBytes s.oq) = true ∧
    admits s.cfg.carryCap s.carry.length = true

/-- "Invariant: no byte of CARRY is 0x00" (R14). -/
def State.CarryZeroFree (s : State) : Prop := (0 : Byte) ∉ s.carry

/-- "If SC_VALID = 0 then KEY = zeros(32), NONCE = zeros(12), BLOCK = zeros(64), CTR = 0, OFF = 64" (R21 (b)). -/
def State.ErasedUnlessValid (s : State) : Prop :=
  s.sce.valid = false →
    s.sce.key = Vector.replicate 32 0 ∧ s.sce.nonce = Vector.replicate 12 0 ∧
      s.sce.block = Vector.replicate 64 0 ∧ s.sce.ctr = 0 ∧ s.sce.off = 64

/-- FAULT = 1 goes with CODE = ERR_PRECOND and an erased engine: fault entry sets them together and the
fault state changes neither (R167, R169). -/
def State.FaultCoherent (s : State) : Prop :=
  (s.fault = true ↔ s.code = .precond) ∧ (s.fault = true → s.sce.valid = false)

/-- The invariant of the state. -/
def State.Inv (s : State) : Prop :=
  s.WithinCaps ∧ s.CarryZeroFree ∧ s.ErasedUnlessValid ∧ s.FaultCoherent

/-! ## The keystream -/

/-- `KS(j) = BLOCK_FN(K, N, (j div 64) mod 2^32)[j mod 64]` (R103). -/
def keystream (bf : BlockFn) (key : Key) (nonce : Nonce) (j : Nat) : Byte :=
  (blockFnApply bf key nonce (BitVec.ofNat 32 (j / 64)))[j % 64]'(Nat.mod_lt _ (by decide))

/-- What CTR, OFF and BLOCK are when n bytes have been processed since SC.INIT (R21 (c)). -/
def Cipher.AtPosition (bf : BlockFn) (n : Nat) (c : Cipher) : Prop :=
  if n = 0 then c.ctr = 0 ∧ c.off = 64 ∧ c.block = Vector.replicate 64 0
  else
    let k := (n + 63) / 64
    c.ctr = BitVec.ofNat 32 k ∧ c.off.val = n - 64 * (k - 1) ∧
      c.block = blockFnApply bf c.key c.nonce (BitVec.ofNat 32 (k - 1))

/-- A loaded engine stands at some position of its stream (R21 (c)). -/
def State.OnItsStream (s : State) : Prop :=
  s.sce.valid = true → ∃ n, s.sce.AtPosition s.cfg.blockFn n

/-! ## Stuffed forms -/

/-- A run of a stuffed form: a code byte k in 1..255 followed by exactly k - 1 literal bytes (R58). -/
def runBytes (literals : Bytes) : Bytes := BitVec.ofNat 8 (literals.length + 1) :: literals

/-- The literals of a run number 0..254, so that the code byte is 1..255 (R58). -/
def RunsOk (runs : List Bytes) : Prop := ∀ r ∈ runs, r.length ≤ 254

/-- The concatenation of runs (R58). -/
def stuffedBytes (runs : List Bytes) : Bytes := runs.flatMap runBytes

/-- The meaning of a stuffed form: each run contributes its literals; each run except the last, when its code
byte is not 255, also contributes one 0x00 (R58). -/
def stuffedPayload : List Bytes → Bytes
  | [] => []
  | [r] => r
  | r :: r' :: rs => r ++ (if r.length + 1 = 255 then [] else [0]) ++ stuffedPayload (r' :: rs)

/-- B written as p_0 ++ [00] ++ p_1 ++ ... ++ [00] ++ rest, every piece zero-free (R90). -/
def Splits (B : Bytes) (complete : List Bytes) (rest : Bytes) : Prop :=
  B = complete.flatMap (fun p => p ++ [0]) ++ rest ∧ (∀ p ∈ complete, (0 : Byte) ∉ p) ∧ (0 : Byte) ∉ rest

/-! ## What a command would push -/

/-- The list L of packets a command would push (R166); `none` where it pushes none, or where a check that comes
before capacity ends it (R168: no key, malformed). -/
def wouldPush : Instr → State → Option (List Bytes)
  | .bufClr, _ => none
  | .fcEnc, s => some [fcEncode s.ibuf]
  | .fcFrame, s => some [fcEncode s.ibuf ++ [0]]
  | .fcDec, s => (fcDecode s.ibuf).map fun r => [r]
  | .fcSplit, s => some (splitSegments (s.carry ++ s.ibuf)).1
  | .fcFlush, _ => none
  | .scInit, _ => none
  | .scEncrypt, s => if s.sce.valid then some [(xorStream s.cfg.blockFn s.sce s.ibuf).1] else none
  | .scDecrypt, s => if s.sce.valid then some [(xorStream s.cfg.blockFn s.sce s.ibuf).1] else none
  | .scErase, _ => none
  | .kdDerive, s => some [(derive s.cfg s.ibuf).1 ++ (derive s.cfg s.ibuf).2]

/-- "for FC.SPLIT, when the remainder is longer than CARRY_CAP" (R166). -/
def RestTooLong (i : Instr) (s : State) : Prop :=
  i = .fcSplit ∧ ∃ m, s.cfg.carryCap = .atMost m ∧ m < (splitSegments (s.carry ++ s.ibuf)).2.length

/-! ## What a command byte is -/

/-- The 245 illegal command bytes: "0x00, 0x02..0x0F, 0x15..0x1F, 0x24..0x2F, 0x31..0xFF" (R56). -/
def IllegalByte (w : Byte) : Prop :=
  w.toNat = 0x00 ∨ (0x02 ≤ w.toNat ∧ w.toNat ≤ 0x0F) ∨ (0x15 ≤ w.toNat ∧ w.toNat ≤ 0x1F) ∨
    (0x24 ≤ w.toNat ∧ w.toNat ≤ 0x2F) ∨ (0x31 ≤ w.toNat ∧ w.toNat ≤ 0xFF)

/-- Two states that differ at most in KEY and NONCE. -/
def SameButKey (s t : State) : Prop :=
  t = { s with sce := { s.sce with key := t.sce.key, nonce := t.sce.nonce } }

end Sys2Proof.Machine
end

