-- ==== Sys2Proof/Certificates/Slice0/Obligations.lean ====
section
/-!
DEFINITION. The statements for the provers. Each cites the rule of spec/ it formalises. What the host gets back
is read from `returned` and what it has issued from `pending` (the model's own fields, assumption log 1).
-/

open Sys2Proof Sys2Proof.Machine

/-! ## Transactions and steps -/

/-- The issued transactions are performed one a step, oldest first, and with none issued nothing changes
(20_memory.md section 4; the list of issued transactions is the model's choice, assumption log 1). -/
def Obligations.IssuedTransactionsRunInOrder : Prop :=
  (∀ (s : State) (t : Transaction) (ts : List Transaction), s.pending = t :: ts →
    step s = perform t { s with pending := ts }) ∧
  (∀ s : State, s.pending = [] → step s = .next s)

/-- A step whose next transaction is H_CMD with a byte that decodes runs exactly that command, with the
transaction taken off the list (30_encoding.md section 4; assumption log 1). -/
def Obligations.StepRunsTheDecodedCommand : Prop :=
  ∀ (s : State) (w : Byte) (ts : List Transaction) (i : Instr),
    s.pending = .cmd w :: ts → decode w = .ok i → i.wf = true →
      step s = exec i { s with pending := ts }

/-- The eleven opcodes, each written out bit by bit as UNIT and FN (30_encoding.md sections 2 and 3). -/
def Obligations.CommandBytesOfTheOpcodeMap : Prop :=
  decode 0b00000001 = .ok .bufClr ∧
  decode 0b00010000 = .ok .fcEnc ∧ decode 0b00010001 = .ok .fcFrame ∧ decode 0b00010010 = .ok .fcDec ∧
  decode 0b00010011 = .ok .fcSplit ∧ decode 0b00010100 = .ok .fcFlush ∧
  decode 0b00100000 = .ok .scInit ∧ decode 0b00100001 = .ok .scEncrypt ∧
  decode 0b00100010 = .ok .scDecrypt ∧ decode 0b00100011 = .ok .scErase ∧
  decode 0b00110000 = .ok .kdDerive

/-- Decoding the encoding of a command gives it back, and a byte that decodes is the encoding of what it
decodes to: no byte aliases a command (30_encoding.md sections 2, 3 and 5). -/
def Obligations.EncodeDecodeAgree : Prop :=
  (∀ i : Instr, i.wf = true → decode (encode i) = .ok i) ∧
  (∀ (w : Byte) (i : Instr), decode w = .ok i → encode i = w)

/-- R56: exactly the listed bytes are no command's byte, and such a command sets CODE to ERR_ILLEGAL and
changes nothing else. -/
def Obligations.IllegalBytesOnlyWriteCode : Prop :=
  (∀ w : Byte, IllegalByte w ↔ ∀ i : Instr, encode i ≠ w) ∧
  ((List.range 256).filter fun n => (decode (BitVec.ofNat 8 n)).toOption.isNone).length = 245 ∧
  (∀ (s : State) (w : Byte) (ts : List Transaction),
    s.pending = .cmd w :: ts → s.fault = false → IllegalByte w →
      step s = .next { s with pending := ts, code := .illegal })

/-- R169: in the fault state every H_CMD changes nothing, every H_PUSH is refused, H_POP and H_STATUS work, and
H_RESET leaves the state with OQ and CARRY empty; no other transaction leaves it: a run without H_RESET is not final,
and of its end state a claim may use the packets H_POP still returns and nothing else. -/
def Obligations.FaultStateRefusesWork : Prop :=
  ∀ (s : State) (ts : List Transaction), s.fault = true →
    (∀ w : Byte, s.pending = .cmd w :: ts → step s = .next { s with pending := ts }) ∧
    (∀ b : Byte, s.pending = .push b :: ts →
      step s = .next { s with pending := ts, returned := s.returned ++ [.accepted false] }) ∧
    (∀ (p : Bytes) (ps : List Bytes), s.pending = .pop :: ts → s.oq = p :: ps →
      step s = .next { s with pending := ts, oq := ps, returned := s.returned ++ [.packet p] }) ∧
    (s.pending = .pop :: ts → s.oq = [] →
      step s = .next { s with pending := ts, returned := s.returned ++ [.noPacket] }) ∧
    (s.pending = .status :: ts →
      step s = .next { s with pending := ts, returned := s.returned ++ [.status (statusWord s)] }) ∧
    (s.pending = .reset :: ts →
      ∃ t, step s = .next t ∧ t.fault = false ∧ t.oq = [] ∧ t.carry = []) ∧
    (∀ us : List Transaction, .reset ∉ us →
      runView s us = some (.notFinal (s.oq.drop (us.count .pop))) ∧
      ∀ t : State, after s us = .next t → ¬ t.Final)

/-- R71: H_PUSH appends the byte when FAULT = 0 and IBUF is not full, and is otherwise refused with no change. -/
def Obligations.PushAppendsOrIsRefused : Prop :=
  ∀ (s : State) (b : Byte) (ts : List Transaction), s.pending = .push b :: ts →
    (s.fault = false → (∀ m, s.cfg.ibufCap = .atMost m → s.ibuf.length < m) →
      step s = .next
        { s with pending := ts, ibuf := s.ibuf ++ [b], returned := s.returned ++ [.accepted true] }) ∧
    ((s.fault = true ∨ ∃ m, s.cfg.ibufCap = .atMost m ∧ m ≤ s.ibuf.length) →
      step s = .next { s with pending := ts, returned := s.returned ++ [.accepted false] })

/-- R72: H_POP removes the head packet and returns it whole, the empty packet included; on an empty queue it
returns NONE and nothing changes. -/
def Obligations.PopTakesTheHeadPacket : Prop :=
  ∀ (s : State) (ts : List Transaction), s.pending = .pop :: ts →
    (∀ (p : Bytes) (ps : List Bytes), s.oq = p :: ps →
      step s = .next { s with pending := ts, oq := ps, returned := s.returned ++ [.packet p] }) ∧
    (s.oq = [] → step s = .next { s with pending := ts, returned := s.returned ++ [.noPacket] })

/-- R74: H_STATUS returns the 32-bit value CODE + 8 FAULT + 16 SC_VALID + 32 OQ_NE, in every state, and changes
nothing. -/
def Obligations.StatusReturnsItsValue : Prop :=
  ∀ (s : State) (ts : List Transaction), s.pending = .status :: ts →
    ∃ w : W32, step s = .next { s with pending := ts, returned := s.returned ++ [.status w] } ∧
      w.toNat = codeNumber s.code + 8 * s.fault.toNat + 16 * s.sce.valid.toNat +
        32 * (if s.oq = [] then 0 else 1)

/-- The fields of STATUS: CODE in bits 2:0 and never 6 or 7, FAULT in bit 3, SC_VALID in bit 4, OQ_NE in bit 5,
bits 31:6 zero (10_state.md section 4). -/
def Obligations.StatusFieldsAndReservedBits : Prop :=
  ∀ s : State,
    (statusWord s).extractLsb' 0 3 = BitVec.ofNat 3 (codeNumber s.code) ∧
    ((statusWord s).extractLsb' 0 3).toNat ≤ 5 ∧
    (statusWord s).getLsbD 3 = s.fault ∧
    (statusWord s).getLsbD 4 = s.sce.valid ∧
    (statusWord s).getLsbD 5 = decide (s.oq ≠ []) ∧
    (statusWord s).extractLsb' 6 26 = 0

/-- R29: H_RESET, in every state, and power-on put every element in the value of the reset table. -/
def Obligations.ResetPutsEveryElementBack : Prop :=
  ∀ s : State, (s = State.reset ∨ ∃ (r : State) (ts : List Transaction), r.pending = .reset :: ts ∧ step r = .next s) →
    s.ibuf = [] ∧ s.oq = [] ∧ s.carry = [] ∧
    (∀ t : Fin 32, s.sce.key[t] = 0) ∧ (∀ t : Fin 12, s.sce.nonce[t] = 0) ∧ s.sce.ctr = 0 ∧
    (∀ t : Fin 64, s.sce.block[t] = 0) ∧ s.sce.off.val = 64 ∧ s.sce.valid = false ∧
    codeNumber s.code = 0 ∧ s.fault = false ∧ statusWord s = 0

/-- H_RESET is accepted in every state and completes; the parameters, the transactions still issued and what
was returned stay (70_reset_and_hazards.md section 1; that the last three stay is the model's choice,
assumption log 11). -/
def Obligations.ResetCompletesInEveryState : Prop :=
  ∀ (s : State) (ts : List Transaction), s.pending = .reset :: ts →
    step s = .next { State.reset with cfg := s.cfg, pending := ts, returned := s.returned }

/-! ## Commands -/

/-- R73: BUF.CLR empties IBUF, sets CODE to OK and touches nothing else. -/
def Obligations.BufClrDiscardsTheOperand : Prop :=
  ∀ s : State, s.fault = false → exec .bufClr s = .next { s with ibuf := [], code := .ok }

/-- R83: FC.ENC pushes the stuffed form of IBUF and clears IBUF; when the packet does not fit nothing changes
but CODE. -/
def Obligations.FcEncPushesTheStuffedForm : Prop :=
  ∀ s : State, s.fault = false →
    (fits s [fcEncode s.ibuf] = true →
      exec .fcEnc s = .next { s with oq := s.oq ++ [fcEncode s.ibuf], ibuf := [], code := .ok }) ∧
    (fits s [fcEncode s.ibuf] = false → exec .fcEnc s = .next { s with code := .overflow })

/-- R84: FC.FRAME pushes the stuffed form and one delimiter as one packet, whose only zero byte is its last;
when it does not fit nothing changes but CODE. -/
def Obligations.FcFramePushesTheFrame : Prop :=
  (∀ s : State, s.fault = false →
    (fits s [fcEncode s.ibuf ++ [0]] = true →
      exec .fcFrame s = .next { s with oq := s.oq ++ [fcEncode s.ibuf ++ [0]], ibuf := [], code := .ok }) ∧
    (fits s [fcEncode s.ibuf ++ [0]] = false → exec .fcFrame s = .next { s with code := .overflow })) ∧
  (∀ P : Bytes, (fcEncode P ++ [0]).count 0 = 1)

/-- R87: FC.DEC pushes the payload; a malformed operand is dropped with ERR_MALFORMED, tested before capacity;
when the payload does not fit nothing changes but CODE. -/
def Obligations.FcDecDeliversOrRejects : Prop :=
  ∀ s : State, s.fault = false →
    (∀ r : Bytes, fcDecode s.ibuf = some r → fits s [r] = true →
      exec .fcDec s = .next { s with oq := s.oq ++ [r], ibuf := [], code := .ok }) ∧
    (fcDecode s.ibuf = none → exec .fcDec s = .next { s with ibuf := [], code := .malformed }) ∧
    (∀ r : Bytes, fcDecode s.ibuf = some r → fits s [r] = false →
      exec .fcDec s = .next { s with code := .overflow })

/-- R90: with CARRY ++ IBUF written as zero-free pieces each followed by 00 and a zero-free rest, FC.SPLIT pushes
the pieces in stream order and keeps the rest; when the rest does not fit CARRY or the pieces do not fit OQ
nothing changes but CODE. -/
def Obligations.FcSplitDeliversTheSegments : Prop :=
  ∀ (s : State) (complete : List Bytes) (rest : Bytes),
    s.fault = false → Splits (s.carry ++ s.ibuf) complete rest →
    ((∀ m, s.cfg.carryCap = .atMost m → rest.length ≤ m) → fits s complete = true →
      exec .fcSplit s =
        .next { s with oq := s.oq ++ complete, carry := rest, ibuf := [], code := .ok }) ∧
    ((∃ m, s.cfg.carryCap = .atMost m ∧ m < rest.length) ∨ fits s complete = false →
      exec .fcSplit s = .next { s with code := .overflow })

/-- Every byte string is so written in exactly one way (41_frame_codec.md section 3: "unique"). -/
def Obligations.StreamSplitsInOneWay : Prop :=
  ∀ B : Bytes, ∃ (complete : List Bytes) (rest : Bytes), Splits B complete rest ∧
    complete.length = B.count 0 ∧
    ∀ (complete' : List Bytes) (rest' : Bytes), Splits B complete' rest' →
      complete' = complete ∧ rest' = rest

/-- R92: FC.FLUSH empties CARRY and sets CODE to OK; IBUF and everything else stay. -/
def Obligations.FcFlushDropsTheCarry : Prop :=
  ∀ s : State, s.fault = false → exec .fcFlush s = .next { s with carry := [], code := .ok }

/-- R101, R102: SC.INIT on an operand of exactly 44 bytes loads key and nonce from it, with CTR 0, BLOCK zeros,
OFF 64, SC_VALID 1, whatever the cipher state was; any other length is fault entry. -/
def Obligations.ScInitLoadsOrFaults : Prop :=
  ∀ s : State, s.fault = false →
    (∀ h : s.ibuf.length = 44,
      exec .scInit s = .next
        { s with
          sce :=
            { key := Vector.ofFn fun t : Fin 32 => s.ibuf[t.val]'(by omega)
              nonce := Vector.ofFn fun t : Fin 12 => s.ibuf[32 + t.val]'(by omega)
              ctr := 0
              block := Vector.replicate 64 0
              off := 64
              valid := true }
          ibuf := []
          code := .ok }) ∧
    (s.ibuf.length ≠ 44 →
      exec .scInit s = .next
        { s with
          sce :=
            { key := Vector.replicate 32 0
              nonce := Vector.replicate 12 0
              ctr := 0
              block := Vector.replicate 64 0
              off := 64
              valid := false }
          ibuf := []
          fault := true
          code := .precond })

/-- R105: SC.ENCRYPT with a key and room pushes xor_stream of IBUF and advances the engine, KEY and NONCE never
changed; with no key the operand is dropped with ERR_NOKEY, tested before room; without room nothing changes but
CODE. -/
def Obligations.ScEncryptXorsTheOperand : Prop :=
  ∀ s : State, s.fault = false →
    ((xorStream s.cfg.blockFn s.sce s.ibuf).2.key = s.sce.key ∧
      (xorStream s.cfg.blockFn s.sce s.ibuf).2.nonce = s.sce.nonce) ∧
    (s.sce.valid = true → fits s [zeros s.ibuf.length] = true →
      exec .scEncrypt s = .next
        { s with
          oq := s.oq ++ [(xorStream s.cfg.blockFn s.sce s.ibuf).1]
          sce := (xorStream s.cfg.blockFn s.sce s.ibuf).2
          ibuf := []
          code := .ok }) ∧
    (s.sce.valid = false → exec .scEncrypt s = .next { s with ibuf := [], code := .nokey }) ∧
    (s.sce.valid = true → fits s [zeros s.ibuf.length] = false →
      exec .scEncrypt s = .next { s with code := .overflow })

/-- R106: SC.DECRYPT has the same checks in the same order, the same xor_stream and the same state changes as
SC.ENCRYPT. -/
def Obligations.ScDecryptIsTheSameOperation : Prop :=
  (∀ s : State, exec .scDecrypt s = exec .scEncrypt s) ∧
  ∀ s : State, s.fault = false →
    (s.sce.valid = true → fits s [zeros s.ibuf.length] = true →
      exec .scDecrypt s = .next
        { s with
          oq := s.oq ++ [(xorStream s.cfg.blockFn s.sce s.ibuf).1]
          sce := (xorStream s.cfg.blockFn s.sce s.ibuf).2
          ibuf := []
          code := .ok }) ∧
    (s.sce.valid = false → exec .scDecrypt s = .next { s with ibuf := [], code := .nokey }) ∧
    (s.sce.valid = true → fits s [zeros s.ibuf.length] = false →
      exec .scDecrypt s = .next { s with code := .overflow })

/-- R107: SC.ERASE zeroes KEY, NONCE and BLOCK, sets CTR 0, OFF 64, SC_VALID 0 and CODE OK; IBUF, OQ and
everything else stay. -/
def Obligations.ScEraseErasesTheEngine : Prop :=
  ∀ s : State, s.fault = false →
    exec .scErase s = .next
      { s with
        sce :=
          { key := Vector.replicate 32 0
            nonce := Vector.replicate 12 0
            ctr := 0
            block := Vector.replicate 64 0
            off := 64
            valid := false }
        code := .ok }

/-- R130, R132: KD.DERIVE pushes the 44-byte packet key ++ nonce of `derive`, which is the partition of the walk of
HASH_FN's digest of IBUF, and clears IBUF, the cipher state untouched; without room for 44 bytes nothing changes but
CODE. -/
def Obligations.KdDerivePushesTheKnPacket : Prop :=
  (∀ (cfg : Config) (M : Bytes),
    derive cfg M = partition cfg.kdfNoncePos (walk cfg.kdfC0 (hashFnApply cfg.hashFn M))) ∧
  ∀ s : State, s.fault = false →
    ((derive s.cfg s.ibuf).1 ++ (derive s.cfg s.ibuf).2).length = 44 ∧
    (fits s [zeros 44] = true →
      exec .kdDerive s = .next
        { s with
          oq := s.oq ++ [(derive s.cfg s.ibuf).1 ++ (derive s.cfg s.ibuf).2]
          ibuf := []
          code := .ok }) ∧
    (fits s [zeros 44] = false → exec .kdDerive s = .next { s with code := .overflow })

/-! ## Outcomes -/

/-- The numbers of the outcomes, and for each error outcome which commands raise it and what state it changes besides
CODE (60_exceptions.md section 1). -/
def Obligations.OutcomesChangeWhatTheTableSays : Prop :=
  (codeNumber .ok = 0 ∧ codeNumber .illegal = 1 ∧ codeNumber .overflow = 2 ∧ codeNumber .malformed = 3 ∧
    codeNumber .nokey = 4 ∧ codeNumber .precond = 5) ∧
  (∀ (s : State) (w : Byte) (ts : List Transaction) (t : State), s.pending = .cmd w :: ts → s.fault = false →
    step s = .next t → (t.code = .illegal ↔ IllegalByte w) ∧
      (IllegalByte w → t = { s with pending := ts, code := .illegal })) ∧
  ∀ (i : Instr) (s t : State), s.fault = false → exec i s = .next t →
    match t.code with
    | .ok => t.fault = false
    | .illegal => False
    | .overflow =>
      (i = .fcEnc ∨ i = .fcFrame ∨ i = .fcDec ∨ i = .fcSplit ∨ i = .scEncrypt ∨ i = .scDecrypt ∨ i = .kdDerive) ∧
        t = { s with code := .overflow }
    | .malformed => i = .fcDec ∧ fcDecode s.ibuf = none ∧ t = { s with ibuf := [], code := .malformed }
    | .nokey =>
      (i = .scEncrypt ∨ i = .scDecrypt) ∧ s.sce.valid = false ∧ t = { s with ibuf := [], code := .nokey }
    | .precond =>
      i = .scInit ∧ s.ibuf.length ≠ 44 ∧
        t = { s with sce := State.reset.sce, ibuf := [], fault := true, code := .precond }

/-- R166: ERR_OVERFLOW is raised exactly when the packets the command would push do not fit or FC.SPLIT's rest is
too long; it has no effect but CODE; after room is made the same command gives the same result as if there had been
room the first time; with unbounded capacities it never occurs. -/
def Obligations.OverflowHasNoEffectAndRetries : Prop :=
  ∀ (i : Instr) (s t : State), s.fault = false → exec i s = .next t →
    (t.code = .overflow ↔ (∃ L, wouldPush i s = some L ∧ fits s L = false) ∨ RestTooLong i s) ∧
    (t.code = .overflow →
      t = { s with code := .overflow } ∧
      ∀ q : List Bytes, exec i { t with oq := q } = exec i { s with oq := q }) ∧
    (AllUnbounded s.cfg → t.code ≠ .overflow)

/-- R167: fault entry happens exactly when SC.INIT is issued outside the fault state with an operand that is not
44 bytes, and then erases the cipher state, clears IBUF, sets FAULT and CODE, and keeps OQ and CARRY. -/
def Obligations.FaultEntryIsScInitsAlone : Prop :=
  ∀ s t : State, s.fault = false → step s = .next t →
    (t.fault = true ↔ (∃ ts, s.pending = .cmd 0x20 :: ts) ∧ s.ibuf.length ≠ 44) ∧
    (t.fault = true →
      t.sce =
        { key := Vector.replicate 32 0
          nonce := Vector.replicate 12 0
          ctr := 0
          block := Vector.replicate 64 0
          off := 64
          valid := false } ∧
      t.ibuf = [] ∧ t.code = .precond ∧ t.oq = s.oq ∧ t.carry = s.carry)

/-- Every command ends in a next state and so does every step: nothing hangs and nothing is undefined
(70_reset_and_hazards.md section 4, 93_implementation_defined.md part 1). -/
def Obligations.EveryTransactionCompletes : Prop :=
  (∀ (i : Instr) (s : State), ∃ t, exec i s = .next t) ∧
  (∀ s : State, ∃ t, step s = .next t) ∧
  (∀ (s : State) (ts : List Transaction), ∃ t, after s ts = .next t ∧ t.pending = [])

/-- What `fits` means (00_scope.md section 4): the packet count and the total length, each within its capacity,
an unbounded capacity making its half true. -/
def Obligations.FitsMeansBothCapacities : Prop :=
  ∀ (s : State) (L : List Bytes),
    fits s L = true ↔
      (∀ m, s.cfg.oqPktsCap = .atMost m → s.oq.length + L.length ≤ m) ∧
      (∀ m, s.cfg.oqBytesCap = .atMost m → (s.oq.map List.length).sum + (L.map List.length).sum ≤ m)

/-! ## Invariants and whole-machine rules -/

/-- After reset the invariants hold and the state is final and clean (10_state.md sections 2, 3 and 6,
70_reset_and_hazards.md section 5). That the state carries the parameters, and that at reset they are the reference
ones, is the model's choice (assumption log 3): these meet the constraints of 00_scope.md section 3. -/
def Obligations.ResetStateMeetsTheInvariants : Prop :=
  State.reset.Inv ∧ State.reset.OnItsStream ∧ State.reset.Final ∧ State.reset.Clean ∧ State.reset.cfg.wf = true

/-- Every step keeps: the buffers within their capacities, CARRY zero-free, the engine erased unless SC_VALID,
FAULT with CODE = 5 and an erased engine (10_state.md sections 2 to 4). -/
def Obligations.InvariantsKeptByEveryStep : Prop :=
  ∀ s t : State, s.Inv → step s = .next t → t.Inv

/-- Every step keeps a loaded engine at a position of its stream: CTR, OFF and BLOCK are those of some number of
bytes processed since SC.INIT (10_state.md section 3). -/
def Obligations.StreamPositionKeptByEveryStep : Prop :=
  ∀ s t : State, s.OnItsStream → step s = .next t → t.OnItsStream

/-- No step changes a parameter (10_state.md section 5; that the state carries them is the model's choice,
assumption log 3). -/
def Obligations.ParametersNeverChange : Prop :=
  ∀ s t : State, step s = .next t → t.cfg = s.cfg

/-- KEY, NONCE and SC_VALID change only by an SC.INIT, an SC.ERASE or a reset, and SC_VALID becomes 1 only by an
SC.INIT of 44 bytes that ended OK (10_state.md section 3). -/
def Obligations.KeyLoadedOnlyByScInit : Prop :=
  ∀ s t : State, step s = .next t →
    (t.sce.key ≠ s.sce.key ∨ t.sce.nonce ≠ s.sce.nonce ∨ t.sce.valid ≠ s.sce.valid →
      ∃ x ts, s.pending = x :: ts ∧ (x = .cmd 0x20 ∨ x = .cmd 0x23 ∨ x = .reset)) ∧
    (s.sce.valid = false → t.sce.valid = true →
      (∃ ts, s.pending = .cmd 0x20 :: ts) ∧ s.ibuf.length = 44 ∧ t.code = .ok)

/-- CARRY changes only by FC.SPLIT, FC.FLUSH or a reset, and is empty after a reset and after an FC.FLUSH that
is not refused (10_state.md section 2). -/
def Obligations.CarryWrittenOnlyBySplitFlushReset : Prop :=
  ∀ s t : State, step s = .next t →
    (t.carry ≠ s.carry → ∃ x ts, s.pending = x :: ts ∧ (x = .cmd 0x13 ∨ x = .cmd 0x14 ∨ x = .reset)) ∧
    (∀ ts, s.pending = .reset :: ts ∨ (s.pending = .cmd 0x14 :: ts ∧ s.fault = false) → t.carry = [])

/-- OQ is first-in first-out: a step appends packets at the tail, or takes the head packet, or, at a reset,
empties the queue; what was queued is never altered or reordered (10_state.md section 2). -/
def Obligations.QueueIsFirstInFirstOut : Prop :=
  ∀ s t : State, step s = .next t →
    (∃ added, t.oq = s.oq ++ added) ∨
    (∃ p ts, s.pending = .pop :: ts ∧ s.oq = p :: t.oq ∧ t.returned = s.returned ++ [.packet p]) ∨
    (∃ ts, s.pending = .reset :: ts ∧ t.oq = [])

/-- No transaction but SC.ENCRYPT and SC.DECRYPT lets KEY or NONCE influence anything: two states that differ at
most in them step to two states that do, with the same values returned (10_state.md sections 3 and 5). -/
def Obligations.KeyInfluencesOnlyTheCipherCommands : Prop :=
  ∀ s₁ s₂ t₁ t₂ : State, SameButKey s₁ s₂ →
    (∀ ts, s₁.pending ≠ .cmd 0x21 :: ts ∧ s₁.pending ≠ .cmd 0x22 :: ts) →
    step s₁ = .next t₁ → step s₂ = .next t₂ →
      SameButKey t₁ t₂ ∧ t₁.returned = t₂.returned ∧ t₁.oq = t₂.oq

/-! ## The frame codec -/

/-- R81: a zero closes the open run with code 1 + its literals; 254 literals close it early with code 255 and a
new code byte is always opened, also at the end of the payload; the last run is closed at the end. -/
def Obligations.EncodeClosesRunsAsStated : Prop :=
  ∀ p P : Bytes, (0 : Byte) ∉ p →
    (p.length ≤ 253 → fcEncode (p ++ 0 :: P) = BitVec.ofNat 8 (p.length + 1) :: (p ++ fcEncode P)) ∧
    (p.length ≤ 253 → fcEncode p = BitVec.ofNat 8 (p.length + 1) :: p) ∧
    (p.length = 254 → fcEncode (p ++ P) = 255 :: (p ++ fcEncode P))

/-- No byte of a stuffed form is zero (41_frame_codec.md section 1). -/
def Obligations.EncodeNeverEmitsZero : Prop :=
  ∀ P : Bytes, (0 : Byte) ∉ fcEncode P

/-- The length of a stuffed form (41_frame_codec.md section 1). -/
def Obligations.EncodeLengthBounds : Prop :=
  ∀ P : Bytes, P.length + 1 ≤ (fcEncode P).length ∧ (fcEncode P).length ≤ P.length + 1 + P.length / 254

/-- The encoder's output is a well-formed stuffed form with zero-free literals whose last run is never maximal,
and means the payload (41_frame_codec.md section 1, 30_encoding.md section 7). -/
def Obligations.EncodeWritesAWellFormedForm : Prop :=
  ∀ P : Bytes, ∃ (runs : List Bytes) (last : Bytes),
    fcEncode P = stuffedBytes (runs ++ [last]) ∧ RunsOk (runs ++ [last]) ∧ last.length ≤ 253 ∧
    (∀ r ∈ runs ++ [last], (0 : Byte) ∉ r) ∧ stuffedPayload (runs ++ [last]) = P

/-- The round trip of the codec, for every payload (41_frame_codec.md section 2). -/
def Obligations.DecodeInvertsEncode : Prop :=
  ∀ P : Bytes, fcDecode (fcEncode P) = some P

/-- The decoder reads every well-formed stuffed form, also one the encoder would not write, as R58 says it means
(30_encoding.md section 7, 41_frame_codec.md section 2). -/
def Obligations.DecodeReadsEveryWellFormedForm : Prop :=
  ∀ runs : List Bytes, RunsOk runs → fcDecode (stuffedBytes runs) = some (stuffedPayload runs)

/-- R86: MALFORMED in exactly two cases: after some whole runs, a zero in code-byte position, or a last run cut
short. Every other input has a payload, literal zeros included. -/
def Obligations.DecodeRejectsExactlyTwoCases : Prop :=
  ∀ S : Bytes,
    fcDecode S = none ↔
      ∃ (runs : List Bytes) (code : Byte) (left : Bytes), RunsOk runs ∧
        S = stuffedBytes runs ++ code :: left ∧ (code = 0 ∨ left.length < code.toNat - 1)

/-- The payload is never longer than the stuffed form (41_frame_codec.md section 2). -/
def Obligations.DecodeNeverLengthens : Prop :=
  ∀ S P : Bytes, fcDecode S = some P → P.length ≤ S.length

/-- The packets pushed and the final CARRY depend only on the concatenation of the chunks, not on where the
chunk boundaries fall, and both runs end in a final state (41_frame_codec.md section 3, 70_reset_and_hazards.md
section 5). -/
def Obligations.SegmentsIndependentOfChunking : Prop :=
  ∀ (s : State) (chunks₁ chunks₂ : List Bytes),
    s.fault = false → s.ibuf = [] → s.CarryZeroFree → AllUnbounded s.cfg →
    chunks₁.flatten = chunks₂.flatten →
    ∃ t₁ t₂ : State,
      after s (feedChunks chunks₁) = .next t₁ ∧ after s (feedChunks chunks₂) = .next t₂ ∧
      t₁.Final ∧ t₂.Final ∧
      t₁.oq = t₂.oq ∧ t₁.carry = t₂.carry ∧ t₁.ibuf = [] ∧ t₂.ibuf = []

/-- Frames written back to back and delivered in any chunking come out as the stuffed forms, one packet each,
CARRY ends empty, the run ends in a final state, and FC.DEC of each gives its payload (41_frame_codec.md section 3,
70_reset_and_hazards.md section 5). -/
def Obligations.FramesSurviveAnyChunking : Prop :=
  ∀ (s : State) (payloads chunks : List Bytes),
    s.fault = false → s.ibuf = [] → s.carry = [] → AllUnbounded s.cfg →
    chunks.flatten = payloads.flatMap (fun P => fcEncode P ++ [0]) →
    ∃ t : State,
      after s (feedChunks chunks) = .next t ∧ t.Final ∧ t.oq = s.oq ++ payloads.map fcEncode ∧ t.carry = [] ∧
      ∀ P ∈ payloads, ∃ u : State,
        exec .fcDec { t with ibuf := fcEncode P } = .next u ∧ u.oq = t.oq ++ [P] ∧ u.code = .ok

/-! ## The stream cipher engine -/

/-- R104: an empty operand changes nothing; with OFF = 64 a fresh block is made from CTR, which is incremented
modulo 2^32, and its byte 0 is used; otherwise BLOCK[OFF] is used and OFF advances; the output is as long as
the input. -/
def Obligations.XorStreamGoesByteByByte : Prop :=
  ∀ (bf : BlockFn) (c : Cipher) (x : Byte) (X : Bytes),
    xorStream bf c [] = ([], c) ∧
    (c.off.val = 64 →
      let b := blockFnApply bf c.key c.nonce c.ctr
      let r := xorStream bf { c with block := b, ctr := BitVec.ofNat 32 ((c.ctr.toNat + 1) % 2 ^ 32), off := 1 } X
      xorStream bf c (x :: X) = ((x ^^^ b[0]) :: r.1, r.2)) ∧
    (∀ h : c.off.val < 64,
      let r := xorStream bf { c with off := ⟨c.off.val + 1, by omega⟩ } X
      xorStream bf c (x :: X) = ((x ^^^ c.block[c.off.val]) :: r.1, r.2)) ∧
    (xorStream bf c X).1.length = X.length

/-- Byte number j of the stream since SC.INIT is XORed with KS(j), whatever the split of the stream into
commands: from position n, output byte j is input byte j XOR KS(n + j), and the engine ends at position
n + |X| with its key and nonce (10_state.md section 3, 42_stream_cipher.md section 1). -/
def Obligations.StreamBytesMeetTheKeystream : Prop :=
  ∀ (bf : BlockFn) (n : Nat) (c : Cipher) (X : Bytes), c.AtPosition bf n →
    (∀ (j : Nat) (hj : j < X.length),
      (xorStream bf c X).1[j]? = some (X[j] ^^^ keystream bf c.key c.nonce (n + j))) ∧
    (xorStream bf c X).2.AtPosition bf (n + X.length) ∧
    (xorStream bf c X).2.key = c.key ∧ (xorStream bf c X).2.nonce = c.nonce

/-- Split independence: X1 and then X2 give the same bytes and the same final engine as X1 ++ X2 in one command
(42_stream_cipher.md section 1). -/
def Obligations.CipherSplitIndependent : Prop :=
  ∀ (s : State) (X₁ X₂ : Bytes), s.fault = false → s.sce.valid = true → AllUnbounded s.cfg →
    ∃ (t₁ t₂ t : State) (Y₁ Y₂ : Bytes),
      exec .scEncrypt { s with ibuf := X₁ } = .next t₁ ∧ t₁.oq = s.oq ++ [Y₁] ∧
      exec .scEncrypt { t₁ with ibuf := X₂ } = .next t₂ ∧ t₂.oq = s.oq ++ [Y₁, Y₂] ∧
      exec .scEncrypt { s with ibuf := X₁ ++ X₂ } = .next t ∧ t.oq = s.oq ++ [Y₁ ++ Y₂] ∧
      t.sce = t₂.sce ∧ Y₁.length = X₁.length ∧ Y₂.length = X₂.length

/-- Involution: two COREs whose engines hold the same state and which use the same BLOCK_FN; what the first
encrypts the second decrypts back, and the two engines end alike (42_stream_cipher.md section 1). -/
def Obligations.DecryptInvertsEncryptAcrossEngines : Prop :=
  ∀ (a b : State) (X : Bytes),
    a.fault = false → b.fault = false → a.sce.valid = true → b.sce = a.sce →
    b.cfg.blockFn = a.cfg.blockFn → AllUnbounded a.cfg → AllUnbounded b.cfg →
    ∃ (a' b' : State) (Y : Bytes),
      exec .scEncrypt { a with ibuf := X } = .next a' ∧ a'.oq = a.oq ++ [Y] ∧
      exec .scDecrypt { b with ibuf := Y } = .next b' ∧ b'.oq = b.oq ++ [X] ∧ b'.sce = a'.sce

/-- The output depends on the input bytewise: on one engine state two operands of one length differ, output
against output, exactly as they differ, input against input, and leave the same engine
(42_stream_cipher.md section 1; 70_reset_and_hazards.md section 3, key and nonce reuse). -/
def Obligations.OutputsDifferAsInputsDiffer : Prop :=
  ∀ (bf : BlockFn) (c : Cipher) (X X' : Bytes), X.length = X'.length →
    List.zipWith (· ^^^ ·) (xorStream bf c X).1 (xorStream bf c X').1 = List.zipWith (· ^^^ ·) X X' ∧
    (xorStream bf c X).2 = (xorStream bf c X').2

/-- R109: when the block made from CTR = 0xFFFFFFFF has been computed CTR becomes 0, the engine goes on, and the
keystream repeats with period 2^38. -/
def Obligations.CounterWrapsAndKeystreamRepeats : Prop :=
  (∀ (bf : BlockFn) (c : Cipher) (x : Byte), c.ctr = 0xFFFFFFFF → c.off.val = 64 →
    (xorStream bf c [x]).2.ctr = 0 ∧ (xorStream bf c [x]).2.off.val = 1 ∧
      (xorStream bf c [x]).2.valid = c.valid) ∧
  (∀ (bf : BlockFn) (key : Key) (nonce : Nonce) (j : Nat),
    keystream bf key nonce (j + 2 ^ 38) = keystream bf key nonce j)

/-- The quarter round writes the words of its four lines, each line using the values written before it, and leaves
the other twelve; `rotl32` is the rotation of 00_scope.md section 4; the four quarter rounds of each line of the double
round, at the stated indices, may be taken in the reverse order, and any two quarter rounds on disjoint words commute
(42_stream_cipher.md section 2, which the spec marks as general knowledge; assumption log 4). -/
def Obligations.QuarterRoundsOfALineCommute : Prop :=
  (∀ (x : W32) (n : Nat), 0 < n → n < 32 →
    (rotl32 x n).toNat = (x.toNat * 2 ^ n % 2 ^ 32) ||| (x.toNat / 2 ^ (32 - n))) ∧
  (∀ (w : Words16) (a b c d : Fin 16), [a, b, c, d].Nodup →
    let a₁ := w[a] + w[b]
    let d₁ := rotl32 (w[d] ^^^ a₁) 16
    let c₁ := w[c] + d₁
    let b₁ := rotl32 (w[b] ^^^ c₁) 12
    let a₂ := a₁ + b₁
    let d₂ := rotl32 (d₁ ^^^ a₂) 8
    let c₂ := c₁ + d₂
    let b₂ := rotl32 (b₁ ^^^ c₂) 7
    (quarterRound w a b c d)[a] = a₂ ∧ (quarterRound w a b c d)[b] = b₂ ∧
      (quarterRound w a b c d)[c] = c₂ ∧ (quarterRound w a b c d)[d] = d₂ ∧
      ∀ i : Fin 16, i ∉ [a, b, c, d] → (quarterRound w a b c d)[i] = w[i]) ∧
  (∀ w : Words16,
    columnRound w =
      quarterRound (quarterRound (quarterRound (quarterRound w 3 7 11 15) 2 6 10 14) 1 5 9 13) 0 4 8 12 ∧
    diagonalRound w =
      quarterRound (quarterRound (quarterRound (quarterRound w 3 4 9 14) 2 7 8 13) 1 6 11 12) 0 5 10 15) ∧
  (∀ (w : Words16) (a b c d a' b' c' d' : Fin 16), [a, b, c, d, a', b', c', d'].Nodup →
    quarterRound (quarterRound w a b c d) a' b' c' d' = quarterRound (quarterRound w a' b' c' d') a b c d)

/-- The default BLOCK_FN is the ChaCha20 block function: its sixteen input words are the four constants, the key and
nonce words little-endian, and CTR; BLOCK[4 j + t] is bits 8 t + 7 : 8 t of o[j], the word after ten double rounds,
columns then diagonals, plus the input word (42_stream_cipher.md section 2, which the spec marks as general knowledge;
assumption log 4). -/
def Obligations.BlockBytesAreTheOutputWords : Prop :=
  ∀ (key : Key) (nonce : Nonce) (ctr : W32),
    let s := chachaInput key nonce ctr
    blockFnApply .chacha20 key nonce ctr = chachaBlock key nonce ctr ∧
    (s[0] = 0x61707865 ∧ s[1] = 0x3320646e ∧ s[2] = 0x79622d32 ∧ s[3] = 0x6b206574) ∧
    (∀ i : Fin 8, s[4 + i.val].toNat =
      key[4 * i.val].toNat + 2 ^ 8 * key[4 * i.val + 1].toNat + 2 ^ 16 * key[4 * i.val + 2].toNat +
        2 ^ 24 * key[4 * i.val + 3].toNat) ∧
    s[12] = ctr ∧
    (∀ i : Fin 3, s[13 + i.val].toNat =
      nonce[4 * i.val].toNat + 2 ^ 8 * nonce[4 * i.val + 1].toNat + 2 ^ 16 * nonce[4 * i.val + 2].toNat +
        2 ^ 24 * nonce[4 * i.val + 3].toNat) ∧
    ∀ (j : Fin 16) (t : Fin 4),
      (chachaBlock key nonce ctr)[4 * j.val + t.val] =
        (((fun w => diagonalRound (columnRound w))^[10] s)[j] + s[j]).extractLsb' (8 * t.val) 8

/-! ## The key derivation routine -/

/-- R133: for the cursor sequence c_1 = 42, c_(i+1) = c_i + d[(c_i + idx + i) mod 64] with idx = d[c_i mod 64],
out is 44 bytes and out[i-1] = d[(c_i + idx) mod 64] for i = 1..44. -/
def Obligations.WalkFollowsTheCursor : Prop :=
  ∀ (d : Digest) (c : Nat → Nat), c 1 = 42 →
    (∀ i, 1 ≤ i → c (i + 1) = c i + (digestAt d (c i + (digestAt d (c i)).toNat + i)).toNat) →
    Config.reference.kdfC0 = 42 ∧ (walk 42 d).length = 44 ∧
      ∀ i, 1 ≤ i → i ≤ 44 → (walk 42 d)[i - 1]? = some (digestAt d (c i + (digestAt d (c i)).toNat))

/-- A cursor kept modulo any multiple of 64 gives the same output, and the unbounded cursor stays below 2^14
(43_key_derivation.md section 4). -/
def Obligations.CursorMayBeKeptModulo64 : Prop :=
  (∀ (d : Digest) (n i c k : Nat), walkFrom d n i (c % (64 * (k + 1))) = walkFrom d n i c) ∧
  (∀ (d : Digest) (c : Nat → Nat), c 1 = 42 →
    (∀ i, 1 ≤ i → c (i + 1) = c i + (digestAt d (c i + (digestAt d (c i)).toNat + i)).toNat) →
    ∀ i, 1 ≤ i → i ≤ 44 → c i + (digestAt d (c i)).toNat + i ≤ 11306)

/-- R134: with the index set of R6, nonce[t] = out[NP[t]] and key[t] = out[KP[t]]; every byte of out is used
exactly once. -/
def Obligations.PartitionUsesEveryByteOnce : Prop :=
  ∀ out : Bytes, out.length = 44 →
    (partition Config.reference.kdfNoncePos out).2 =
      [3, 7, 9, 12, 14, 17, 21, 24, 26, 28, 33, 42].map (fun p => out.getD p 0) ∧
    (partition Config.reference.kdfNoncePos out).1 =
      [0, 1, 2, 4, 5, 6, 8, 10, 11, 13, 15, 16, 18, 19, 20, 22, 23, 25, 27, 29, 30, 31, 32, 34, 35, 36, 37, 38,
        39, 40, 41, 43].map (fun p => out.getD p 0) ∧
    ((partition Config.reference.kdfNoncePos out).1 ++ (partition Config.reference.kdfNoncePos out).2).Perm out

/-- For every well-formed choice of the parameters the key has 32 bytes and the nonce 12, and every byte of both
is a byte of the digest (43_key_derivation.md section 4). -/
def Obligations.DerivedBytesComeFromTheDigest : Prop :=
  ∀ (cfg : Config) (M : Bytes), cfg.wf = true →
    (derive cfg M).1.length = 32 ∧ (derive cfg M).2.length = 12 ∧
    ∀ b ∈ (derive cfg M).1 ++ (derive cfg M).2, b ∈ (hashFnApply cfg.hashFn M).toList

/-- The padding of SHA-512: M, 0x80, the fewest zeros that make the length a multiple of 128, and the bit length
as 16 big-endian bytes; the N = (|M| + 17 + 127) div 128 blocks of 128 bytes are the padded message
(43_key_derivation.md section 3, which the spec marks as general knowledge; assumption log 5). -/
def Obligations.PaddedMessageHasTheStatedShape : Prop :=
  ∀ M : Bytes, 8 * M.length < 2 ^ 128 →
    (∃ (z : Nat) (len : Bytes), shaPad M = M ++ [0x80] ++ List.replicate z 0 ++ len ∧ len.length = 16 ∧
      (M.length + 1 + z + 16) % 128 = 0 ∧ (∀ z' < z, (M.length + 1 + z' + 16) % 128 ≠ 0) ∧
      len.foldl (fun n b => 256 * n + b.toNat) 0 = 8 * M.length) ∧
    (messageBlocks M).length = (M.length + 17 + 127) / 128 ∧
    (∀ b ∈ messageBlocks M, b.length = 128) ∧ (messageBlocks M).flatten = shaPad M
end

