-- ==== Sys2Proof/Laws/State.lean ====
section
/-!
SUPPORT. One lemma per field per update of the state: what each shared operation writes and what it leaves.
-/

namespace Sys2Proof.Machine

@[simp] theorem setCode_ibuf (c : Code) (s : State) : (setCode c s).ibuf = s.ibuf := rfl
@[simp] theorem setCode_oq (c : Code) (s : State) : (setCode c s).oq = s.oq := rfl
@[simp] theorem setCode_carry (c : Code) (s : State) : (setCode c s).carry = s.carry := rfl
@[simp] theorem setCode_sce (c : Code) (s : State) : (setCode c s).sce = s.sce := rfl
@[simp] theorem setCode_code (c : Code) (s : State) : (setCode c s).code = c := rfl
@[simp] theorem setCode_fault (c : Code) (s : State) : (setCode c s).fault = s.fault := rfl
@[simp] theorem setCode_cfg (c : Code) (s : State) : (setCode c s).cfg = s.cfg := rfl
@[simp] theorem setCode_pending (c : Code) (s : State) : (setCode c s).pending = s.pending := rfl
@[simp] theorem setCode_returned (c : Code) (s : State) : (setCode c s).returned = s.returned := rfl

@[simp] theorem clearIbuf_ibuf (s : State) : (clearIbuf s).ibuf = [] := rfl
@[simp] theorem clearIbuf_oq (s : State) : (clearIbuf s).oq = s.oq := rfl
@[simp] theorem clearIbuf_carry (s : State) : (clearIbuf s).carry = s.carry := rfl
@[simp] theorem clearIbuf_sce (s : State) : (clearIbuf s).sce = s.sce := rfl
@[simp] theorem clearIbuf_code (s : State) : (clearIbuf s).code = s.code := rfl
@[simp] theorem clearIbuf_fault (s : State) : (clearIbuf s).fault = s.fault := rfl
@[simp] theorem clearIbuf_cfg (s : State) : (clearIbuf s).cfg = s.cfg := rfl
@[simp] theorem clearIbuf_pending (s : State) : (clearIbuf s).pending = s.pending := rfl
@[simp] theorem clearIbuf_returned (s : State) : (clearIbuf s).returned = s.returned := rfl

@[simp] theorem clearCarry_ibuf (s : State) : (clearCarry s).ibuf = s.ibuf := rfl
@[simp] theorem clearCarry_oq (s : State) : (clearCarry s).oq = s.oq := rfl
@[simp] theorem clearCarry_carry (s : State) : (clearCarry s).carry = [] := rfl
@[simp] theorem clearCarry_sce (s : State) : (clearCarry s).sce = s.sce := rfl
@[simp] theorem clearCarry_code (s : State) : (clearCarry s).code = s.code := rfl
@[simp] theorem clearCarry_fault (s : State) : (clearCarry s).fault = s.fault := rfl
@[simp] theorem clearCarry_cfg (s : State) : (clearCarry s).cfg = s.cfg := rfl
@[simp] theorem clearCarry_pending (s : State) : (clearCarry s).pending = s.pending := rfl
@[simp] theorem clearCarry_returned (s : State) : (clearCarry s).returned = s.returned := rfl

@[simp] theorem pushPackets_ibuf (ps : List Bytes) (s : State) : (pushPackets ps s).ibuf = s.ibuf := rfl
@[simp] theorem pushPackets_oq (ps : List Bytes) (s : State) : (pushPackets ps s).oq = s.oq ++ ps := rfl
@[simp] theorem pushPackets_carry (ps : List Bytes) (s : State) : (pushPackets ps s).carry = s.carry := rfl
@[simp] theorem pushPackets_sce (ps : List Bytes) (s : State) : (pushPackets ps s).sce = s.sce := rfl
@[simp] theorem pushPackets_code (ps : List Bytes) (s : State) : (pushPackets ps s).code = s.code := rfl
@[simp] theorem pushPackets_fault (ps : List Bytes) (s : State) : (pushPackets ps s).fault = s.fault := rfl
@[simp] theorem pushPackets_cfg (ps : List Bytes) (s : State) : (pushPackets ps s).cfg = s.cfg := rfl
@[simp] theorem pushPackets_pending (ps : List Bytes) (s : State) : (pushPackets ps s).pending = s.pending := rfl
@[simp] theorem pushPackets_returned (ps : List Bytes) (s : State) : (pushPackets ps s).returned = s.returned := rfl

@[simp] theorem eraseCipher_ibuf (s : State) : (eraseCipher s).ibuf = s.ibuf := rfl
@[simp] theorem eraseCipher_oq (s : State) : (eraseCipher s).oq = s.oq := rfl
@[simp] theorem eraseCipher_carry (s : State) : (eraseCipher s).carry = s.carry := rfl
@[simp] theorem eraseCipher_sce (s : State) : (eraseCipher s).sce = erasedCipher := rfl
@[simp] theorem eraseCipher_code (s : State) : (eraseCipher s).code = s.code := rfl
@[simp] theorem eraseCipher_fault (s : State) : (eraseCipher s).fault = s.fault := rfl
@[simp] theorem eraseCipher_cfg (s : State) : (eraseCipher s).cfg = s.cfg := rfl
@[simp] theorem eraseCipher_pending (s : State) : (eraseCipher s).pending = s.pending := rfl
@[simp] theorem eraseCipher_returned (s : State) : (eraseCipher s).returned = s.returned := rfl

@[simp] theorem raiseOverflow_ibuf (s : State) : (raiseOverflow s).ibuf = s.ibuf := rfl
@[simp] theorem raiseOverflow_oq (s : State) : (raiseOverflow s).oq = s.oq := rfl
@[simp] theorem raiseOverflow_carry (s : State) : (raiseOverflow s).carry = s.carry := rfl
@[simp] theorem raiseOverflow_sce (s : State) : (raiseOverflow s).sce = s.sce := rfl
@[simp] theorem raiseOverflow_code (s : State) : (raiseOverflow s).code = .overflow := rfl
@[simp] theorem raiseOverflow_fault (s : State) : (raiseOverflow s).fault = s.fault := rfl
@[simp] theorem raiseOverflow_cfg (s : State) : (raiseOverflow s).cfg = s.cfg := rfl
@[simp] theorem raiseOverflow_pending (s : State) : (raiseOverflow s).pending = s.pending := rfl
@[simp] theorem raiseOverflow_returned (s : State) : (raiseOverflow s).returned = s.returned := rfl

@[simp] theorem raiseMalformed_ibuf (s : State) : (raiseMalformed s).ibuf = [] := rfl
@[simp] theorem raiseMalformed_oq (s : State) : (raiseMalformed s).oq = s.oq := rfl
@[simp] theorem raiseMalformed_carry (s : State) : (raiseMalformed s).carry = s.carry := rfl
@[simp] theorem raiseMalformed_sce (s : State) : (raiseMalformed s).sce = s.sce := rfl
@[simp] theorem raiseMalformed_code (s : State) : (raiseMalformed s).code = .malformed := rfl
@[simp] theorem raiseMalformed_fault (s : State) : (raiseMalformed s).fault = s.fault := rfl
@[simp] theorem raiseMalformed_cfg (s : State) : (raiseMalformed s).cfg = s.cfg := rfl
@[simp] theorem raiseMalformed_pending (s : State) : (raiseMalformed s).pending = s.pending := rfl
@[simp] theorem raiseMalformed_returned (s : State) : (raiseMalformed s).returned = s.returned := rfl

@[simp] theorem raiseNokey_ibuf (s : State) : (raiseNokey s).ibuf = [] := rfl
@[simp] theorem raiseNokey_oq (s : State) : (raiseNokey s).oq = s.oq := rfl
@[simp] theorem raiseNokey_carry (s : State) : (raiseNokey s).carry = s.carry := rfl
@[simp] theorem raiseNokey_sce (s : State) : (raiseNokey s).sce = s.sce := rfl
@[simp] theorem raiseNokey_code (s : State) : (raiseNokey s).code = .nokey := rfl
@[simp] theorem raiseNokey_fault (s : State) : (raiseNokey s).fault = s.fault := rfl
@[simp] theorem raiseNokey_cfg (s : State) : (raiseNokey s).cfg = s.cfg := rfl
@[simp] theorem raiseNokey_pending (s : State) : (raiseNokey s).pending = s.pending := rfl
@[simp] theorem raiseNokey_returned (s : State) : (raiseNokey s).returned = s.returned := rfl

@[simp] theorem finish_ibuf (s : State) : (finish s).ibuf = [] := rfl
@[simp] theorem finish_oq (s : State) : (finish s).oq = s.oq := rfl
@[simp] theorem finish_carry (s : State) : (finish s).carry = s.carry := rfl
@[simp] theorem finish_sce (s : State) : (finish s).sce = s.sce := rfl
@[simp] theorem finish_code (s : State) : (finish s).code = .ok := rfl
@[simp] theorem finish_fault (s : State) : (finish s).fault = s.fault := rfl
@[simp] theorem finish_cfg (s : State) : (finish s).cfg = s.cfg := rfl
@[simp] theorem finish_pending (s : State) : (finish s).pending = s.pending := rfl
@[simp] theorem finish_returned (s : State) : (finish s).returned = s.returned := rfl

@[simp] theorem enterFault_ibuf (s : State) : (enterFault s).ibuf = [] := rfl
@[simp] theorem enterFault_oq (s : State) : (enterFault s).oq = s.oq := rfl
@[simp] theorem enterFault_carry (s : State) : (enterFault s).carry = s.carry := rfl
@[simp] theorem enterFault_sce (s : State) : (enterFault s).sce = erasedCipher := rfl
@[simp] theorem enterFault_code (s : State) : (enterFault s).code = .precond := rfl
@[simp] theorem enterFault_fault (s : State) : (enterFault s).fault = true := rfl
@[simp] theorem enterFault_cfg (s : State) : (enterFault s).cfg = s.cfg := rfl
@[simp] theorem enterFault_pending (s : State) : (enterFault s).pending = s.pending := rfl
@[simp] theorem enterFault_returned (s : State) : (enterFault s).returned = s.returned := rfl

@[simp] theorem resetCore_ibuf (s : State) : (resetCore s).ibuf = [] := rfl
@[simp] theorem resetCore_oq (s : State) : (resetCore s).oq = [] := rfl
@[simp] theorem resetCore_carry (s : State) : (resetCore s).carry = [] := rfl
@[simp] theorem resetCore_sce (s : State) : (resetCore s).sce = erasedCipher := rfl
@[simp] theorem resetCore_code (s : State) : (resetCore s).code = .ok := rfl
@[simp] theorem resetCore_fault (s : State) : (resetCore s).fault = false := rfl
@[simp] theorem resetCore_cfg (s : State) : (resetCore s).cfg = s.cfg := rfl
@[simp] theorem resetCore_pending (s : State) : (resetCore s).pending = s.pending := rfl
@[simp] theorem resetCore_returned (s : State) : (resetCore s).returned = s.returned := rfl

@[simp] theorem giveBack_ibuf (r : Returned) (s : State) : (giveBack r s).ibuf = s.ibuf := rfl
@[simp] theorem giveBack_oq (r : Returned) (s : State) : (giveBack r s).oq = s.oq := rfl
@[simp] theorem giveBack_carry (r : Returned) (s : State) : (giveBack r s).carry = s.carry := rfl
@[simp] theorem giveBack_sce (r : Returned) (s : State) : (giveBack r s).sce = s.sce := rfl
@[simp] theorem giveBack_code (r : Returned) (s : State) : (giveBack r s).code = s.code := rfl
@[simp] theorem giveBack_fault (r : Returned) (s : State) : (giveBack r s).fault = s.fault := rfl
@[simp] theorem giveBack_cfg (r : Returned) (s : State) : (giveBack r s).cfg = s.cfg := rfl
@[simp] theorem giveBack_pending (r : Returned) (s : State) : (giveBack r s).pending = s.pending := rfl
@[simp] theorem giveBack_returned (r : Returned) (s : State) : (giveBack r s).returned = s.returned ++ [r] := rfl

/-- The reset state's engine is the erased one (R29, R107). -/
theorem reset_sce : State.reset.sce = erasedCipher := rfl

end Sys2Proof.Machine
end

