-- ==== Sys2Proof/Laws/Ops.lean ====
section
/-!
SUPPORT. What the shared operations can do, said once: capacities and `fits`, the command gate, the end of a
command, and the total functions behind `exec`, `perform` and `step`.
-/

namespace Sys2Proof.Machine

/-! ## Capacities -/

@[simp] theorem admits_unbounded (n : Nat) : admits .unbounded n = true := rfl

@[simp] theorem admits_atMost (m n : Nat) : admits (.atMost m) n = true ↔ n ≤ m := by
  simp [admits]

/-- Fewer never exceed a capacity that more do not. -/
theorem admits_mono {c : Capacity} {m n : Nat} (h : admits c n = true) (hmn : m ≤ n) : admits c m = true := by
  cases c with
  | unbounded => rfl
  | atMost k => rw [admits_atMost] at h ⊢; omega

@[simp] theorem totalBytes_append (ps qs : List Bytes) : totalBytes (ps ++ qs) = totalBytes ps + totalBytes qs := by
  simp [totalBytes]

@[simp] theorem totalBytes_nil : totalBytes [] = 0 := rfl

@[simp] theorem totalBytes_singleton (p : Bytes) : totalBytes [p] = p.length := by simp [totalBytes]

@[simp] theorem totalBytes_cons (p : Bytes) (ps : List Bytes) : totalBytes (p :: ps) = p.length + totalBytes ps := by
  simp [totalBytes]

@[simp] theorem length_zeros (n : Nat) : (zeros n).length = n := by simp [zeros]

/-- What `fits` grants: the queue with the packets added is within both capacities. -/
theorem caps_of_fits {s : State} {L : List Bytes} (h : fits s L = true) :
    admits s.cfg.oqPktsCap (s.oq ++ L).length = true ∧
      admits s.cfg.oqBytesCap (totalBytes (s.oq ++ L)) = true := by
  simpa [fits] using h

/-- `fits` looks at the parameters and the queue, and at the packets' number and total length only. -/
theorem fits_congr {s t : State} {L M : List Bytes} (hc : s.cfg = t.cfg) (hq : s.oq = t.oq)
    (hl : L.length = M.length) (hb : totalBytes L = totalBytes M) : fits s L = fits t M := by
  simp [fits, hc, hq, hl, hb]

/-- With unbounded capacities every packet list fits. -/
theorem fits_of_unbounded {s : State} (h : AllUnbounded s.cfg) (L : List Bytes) : fits s L = true := by
  obtain ⟨-, hp, hb, -⟩ := h
  simp [fits, hp, hb]

/-! ## The command gate and the end of a command -/

theorem command_running {s : State} (h : s.fault = false) (rule : State → State) :
    command s rule = .next (rule s) := by
  simp [command, h]

theorem command_faulted {s : State} (h : s.fault = true) (rule : State → State) :
    command s rule = .next s := by
  simp [command, h]

theorem deliver_fits {s : State} {ps : List Bytes} (h : fits s ps = true) :
    deliver ps s = { s with oq := s.oq ++ ps, ibuf := [], code := .ok } := by
  rw [deliver, if_pos h]; rfl

theorem deliver_overflow {s : State} {ps : List Bytes} (h : fits s ps = false) :
    deliver ps s = { s with code := .overflow } := by
  rw [deliver, if_neg (by simp [h])]; rfl

/-! ## The rules with more than one outcome -/

theorem splitChunk_ok {s : State} (hc : admits s.cfg.carryCap (splitSegments (s.carry ++ s.ibuf)).2.length = true)
    (hf : fits s (splitSegments (s.carry ++ s.ibuf)).1 = true) :
    splitChunk s =
      { s with
        oq := s.oq ++ (splitSegments (s.carry ++ s.ibuf)).1
        carry := (splitSegments (s.carry ++ s.ibuf)).2, ibuf := [], code := .ok } := by
  rw [splitChunk]
  exact if_neg (by simp [operand, hc, hf])

theorem splitChunk_overflow {s : State}
    (h : admits s.cfg.carryCap (splitSegments (s.carry ++ s.ibuf)).2.length = false ∨
      fits s (splitSegments (s.carry ++ s.ibuf)).1 = false) :
    splitChunk s = { s with code := .overflow } := by
  rw [splitChunk]
  exact if_pos (by simpa [operand] using h)

theorem initCipher_ok {s : State} (h : s.ibuf.length = 44) :
    initCipher s = { s with sce := loadedCipher s.ibuf, ibuf := [], code := .ok } := by
  rw [initCipher]
  exact if_pos h

theorem initCipher_fault {s : State} (h : s.ibuf.length ≠ 44) : initCipher s = enterFault s := by
  rw [initCipher]
  exact if_neg h

theorem cryptOperand_nokey {s : State} (h : s.sce.valid = false) :
    cryptOperand s = { s with ibuf := [], code := .nokey } := by
  rw [cryptOperand]
  exact if_pos (by simp [h])

theorem cryptOperand_overflow {s : State} (h : s.sce.valid = true) (hf : fits s [zeros s.ibuf.length] = false) :
    cryptOperand s = { s with code := .overflow } := by
  rw [cryptOperand, if_neg (by simp [h])]
  exact if_pos (by simp [operand, hf])

theorem cryptOperand_ok {s : State} (h : s.sce.valid = true) (hf : fits s [zeros s.ibuf.length] = true) :
    cryptOperand s =
      { s with
        oq := s.oq ++ [(xorStream s.cfg.blockFn s.sce s.ibuf).1]
        sce := (xorStream s.cfg.blockFn s.sce s.ibuf).2, ibuf := [], code := .ok } := by
  rw [cryptOperand, if_neg (by simp [h])]
  exact if_neg (by simp [operand, hf])

theorem deriveOperand_overflow {s : State} (hf : fits s [zeros 44] = false) :
    deriveOperand s = { s with code := .overflow } := by
  rw [deriveOperand]
  exact if_pos (by simp [knLength, hf])

theorem deriveOperand_ok {s : State} (hf : fits s [zeros 44] = true) :
    deriveOperand s =
      { s with
        oq := s.oq ++ [knPacket (derive s.cfg s.ibuf).1 (derive s.cfg s.ibuf).2], ibuf := [], code := .ok } := by
  rw [deriveOperand]
  exact if_neg (by simp [knLength, hf])

/-! ## The transactions -/

theorem hostPush_ok {s : State} (b : Byte) (hf : s.fault = false) (hc : admits s.cfg.ibufCap (s.ibuf.length + 1) = true) :
    hostPush b s = { s with ibuf := s.ibuf ++ [b], returned := s.returned ++ [.accepted true] } := by
  rw [hostPush, if_neg (by simp [hf, hc])]; rfl

theorem hostPush_refused {s : State} (b : Byte)
    (h : s.fault = true ∨ admits s.cfg.ibufCap (s.ibuf.length + 1) = false) :
    hostPush b s = { s with returned := s.returned ++ [.accepted false] } := by
  rw [hostPush, if_pos (by simpa using h)]; rfl

theorem hostPop_empty {s : State} (h : s.oq = []) :
    hostPop s = { s with returned := s.returned ++ [.noPacket] } := by
  unfold hostPop
  split
  · rfl
  · simp_all

theorem hostPop_head {s : State} {p : Bytes} {ps : List Bytes} (h : s.oq = p :: ps) :
    hostPop s = { s with oq := ps, returned := s.returned ++ [.packet p] } := by
  rw [hostPop, h]; simp [giveBack]

/-! ## The total functions behind exec, perform and step -/

/-- The command's own rule (R54 step 3). -/
def commandRule : Instr → State → State
  | .bufClr => finish
  | .fcEnc => fun s => deliver [fcEncode (operand s)] s
  | .fcFrame => fun s => deliver [fcEncode (operand s) ++ [delim]] s
  | .fcDec => fun s =>
    match fcDecode (operand s) with
    | none => raiseMalformed s
    | some r => deliver [r] s
  | .fcSplit => splitChunk
  | .fcFlush => fun s => setCode .ok (clearCarry s)
  | .scInit => initCipher
  | .scEncrypt => cryptOperand
  | .scDecrypt => cryptOperand
  | .scErase => fun s => setCode .ok (eraseCipher s)
  | .kdDerive => deriveOperand

/-- Every command is its own rule behind the one gate. -/
theorem exec_eq_command (i : Instr) (s : State) : exec i s = command s (commandRule i) := by
  cases i <;> rfl

theorem exec_running (i : Instr) {s : State} (h : s.fault = false) : exec i s = .next (commandRule i s) := by
  rw [exec_eq_command, command_running h]

theorem exec_faulted (i : Instr) {s : State} (h : s.fault = true) : exec i s = .next s := by
  rw [exec_eq_command, command_faulted h]

/-- The state after H_CMD(w) (R54). -/
def commandState (w : Byte) (s : State) : State :=
  if s.fault then s
  else
    match decode w with
    | .ok i => commandRule i s
    | .error _ => setCode .illegal s

theorem hostCommand_eq (w : Byte) (s : State) : hostCommand w s = .next (commandState w s) := by
  unfold hostCommand commandState
  cases hf : s.fault <;> cases hd : decode w <;>
    simp [exec_running, exec_faulted, hf, illegalCommand, command]

theorem commandState_faulted (w : Byte) {s : State} (h : s.fault = true) : commandState w s = s := by
  simp [commandState, h]

theorem commandState_ok {w : Byte} {i : Instr} {s : State} (h : s.fault = false) (hd : decode w = .ok i) :
    commandState w s = commandRule i s := by
  simp [commandState, h, hd]

theorem commandState_illegal {w : Byte} {e : DecodeError} {s : State} (h : s.fault = false) (hd : decode w = .error e) :
    commandState w s = { s with code := .illegal } := by
  simp [commandState, h, hd, setCode]

/-- The state after one transaction. -/
def performState : Transaction → State → State
  | .push b, s => hostPush b s
  | .cmd w, s => commandState w s
  | .pop, s => hostPop s
  | .status, s => hostStatus s
  | .reset, s => hostReset s

/-- Every transaction completes (R202). -/
theorem perform_eq (t : Transaction) (s : State) : perform t s = .next (performState t s) := by
  cases t <;> simp [perform, performState, hostCommand_eq]

/-- The state after one step. -/
def stepState (s : State) : State :=
  match s.pending with
  | [] => s
  | t :: ts => performState t { s with pending := ts }

theorem step_eq (s : State) : step s = .next (stepState s) := by
  unfold step performNext stepState
  cases s.pending <;> simp [perform_eq]

/-- What a step can do: nothing when nothing is issued, otherwise the oldest transaction. -/
theorem step_cases {s t : State} (h : step s = .next t) :
    (s.pending = [] ∧ t = s) ∨
      ∃ x xs, s.pending = x :: xs ∧ t = performState x { s with pending := xs } := by
  rw [step_eq] at h
  injection h with h
  subst h
  unfold stepState
  cases hp : s.pending with
  | nil => exact .inl ⟨rfl, rfl⟩
  | cons x xs => exact .inr ⟨x, xs, rfl, rfl⟩

/-! ## Runs -/

/-- The state after a list of transactions, with nothing left pending. -/
def runState : List Transaction → State → State
  | [], s => s
  | t :: ts, s => runState ts (performState t s)

@[simp] theorem runState_append (ts us : List Transaction) (s : State) :
    runState (ts ++ us) s = runState us (runState ts s) := by
  induction ts generalizing s with
  | nil => rfl
  | cons t ts ih => exact ih _

/-- The end of a command does not look at what is pending. -/
theorem deliver_pending (ps : List Bytes) (s : State) (q : List Transaction) :
    deliver ps { s with pending := q } = { deliver ps s with pending := q } := by
  cases h : fits s ps with
  | true => rw [deliver_fits h, deliver_fits (s := { s with pending := q }) h]
  | false => rw [deliver_overflow h, deliver_overflow (s := { s with pending := q }) h]

/-- A command's rule does not look at what is pending. -/
theorem commandRule_pending (i : Instr) (s : State) (q : List Transaction) :
    commandRule i { s with pending := q } = { commandRule i s with pending := q } := by
  cases i with
  | bufClr => rfl
  | fcEnc => exact deliver_pending _ s q
  | fcFrame => exact deliver_pending _ s q
  | fcDec =>
    show (match fcDecode s.ibuf with
      | none => raiseMalformed { s with pending := q }
      | some r => deliver [r] { s with pending := q }) =
        { (match fcDecode s.ibuf with
          | none => raiseMalformed s
          | some r => deliver [r] s) with pending := q }
    cases fcDecode s.ibuf with
    | none => rfl
    | some r => exact deliver_pending _ s q
  | fcSplit =>
    show splitChunk { s with pending := q } = { splitChunk s with pending := q }
    by_cases h : admits s.cfg.carryCap (splitSegments (s.carry ++ s.ibuf)).2.length = true ∧
        fits s (splitSegments (s.carry ++ s.ibuf)).1 = true
    · rw [splitChunk_ok h.1 h.2]
      exact splitChunk_ok (s := { s with pending := q }) h.1 h.2
    · rw [not_and_or, Bool.not_eq_true, Bool.not_eq_true] at h
      rw [splitChunk_overflow h]
      exact splitChunk_overflow (s := { s with pending := q }) h
  | fcFlush => rfl
  | scInit =>
    show initCipher { s with pending := q } = { initCipher s with pending := q }
    by_cases h : s.ibuf.length = 44
    · rw [initCipher_ok h]
      exact initCipher_ok (s := { s with pending := q }) h
    · rw [initCipher_fault h]
      exact initCipher_fault (s := { s with pending := q }) h
  | scEncrypt | scDecrypt =>
    show cryptOperand { s with pending := q } = { cryptOperand s with pending := q }
    cases h : s.sce.valid with
    | false =>
      rw [cryptOperand_nokey h]
      exact cryptOperand_nokey (s := { s with pending := q }) h
    | true =>
      cases hf : fits s [zeros s.ibuf.length] with
      | false =>
        rw [cryptOperand_overflow h hf]
        exact cryptOperand_overflow (s := { s with pending := q }) h hf
      | true =>
        rw [cryptOperand_ok h hf]
        exact cryptOperand_ok (s := { s with pending := q }) h hf
  | scErase => rfl
  | kdDerive =>
    show deriveOperand { s with pending := q } = { deriveOperand s with pending := q }
    cases hf : fits s [zeros 44] with
    | false =>
      rw [deriveOperand_overflow hf]
      exact deriveOperand_overflow (s := { s with pending := q }) hf
    | true =>
      rw [deriveOperand_ok hf]
      exact deriveOperand_ok (s := { s with pending := q }) hf

/-- A transaction neither reads nor writes what is pending. -/
theorem performState_pending (t : Transaction) (s : State) (q : List Transaction) :
    performState t { s with pending := q } = { performState t s with pending := q } := by
  cases t with
  | push b =>
    show hostPush b { s with pending := q } = { hostPush b s with pending := q }
    by_cases h : s.fault = true ∨ admits s.cfg.ibufCap (s.ibuf.length + 1) = false
    · rw [hostPush_refused b h]
      exact hostPush_refused (s := { s with pending := q }) b h
    · rw [not_or, Bool.not_eq_true, Bool.not_eq_false] at h
      rw [hostPush_ok b h.1 h.2]
      exact hostPush_ok (s := { s with pending := q }) b h.1 h.2
  | cmd w =>
    show commandState w { s with pending := q } = { commandState w s with pending := q }
    by_cases h : s.fault = true
    · rw [commandState_faulted w h]
      exact commandState_faulted w (s := { s with pending := q }) h
    · rw [Bool.not_eq_true] at h
      cases hd : decode w with
      | ok i =>
        rw [commandState_ok h hd, ← commandRule_pending]
        exact commandState_ok (s := { s with pending := q }) h hd
      | error e =>
        rw [commandState_illegal h hd]
        exact commandState_illegal (s := { s with pending := q }) h hd
  | pop =>
    show hostPop { s with pending := q } = { hostPop s with pending := q }
    by_cases h : s.oq = []
    · rw [hostPop_empty h]
      exact hostPop_empty (s := { s with pending := q }) h
    · obtain ⟨p, ps, h⟩ := List.exists_cons_of_ne_nil h
      rw [hostPop_head h]
      exact hostPop_head (s := { s with pending := q }) h
  | status => rfl
  | reset => rfl

/-- One step of a run. -/
theorem core_run_step {s t : State} (h : step s = .next t) (n : Nat) :
    Host.Core.run core (n + 1) s = Host.Core.run core n t := by
  have h' : core.step s = Host.Outcome.next t := h
  simp only [Host.Core.run, h']

/-- Running steps performs the issued transactions in order (R40, R203). -/
theorem after_eq (s : State) (ts : List Transaction) :
    after s ts = .next { runState ts s with pending := [] } := by
  unfold after
  induction ts generalizing s with
  | nil => rfl
  | cons t ts ih =>
    have hs : step { s with pending := t :: ts } = .next { performState t s with pending := ts } := by
      rw [step_eq]
      exact congrArg _ (performState_pending t s ts)
    exact (core_run_step hs ts.length).trans (ih _)

/-! ## The end of a run -/

theorem endView_final {s : State} (h : s.Final) : s.endView = .final s := by
  rw [State.endView, if_neg (by rw [h]; decide)]

theorem endView_notFinal {s : State} (h : s.fault = true) : s.endView = .notFinal s.oq := if_pos h

theorem runView_eq (s : State) (ts : List Transaction) :
    runView s ts = some (State.endView { runState ts s with pending := [] }) := by
  rw [runView, after_eq]

end Sys2Proof.Machine
end

