-- ==== Sys2Proof/Laws/FrameCodec.lean ====
section
/-!
SUPPORT. What the frame codec's functions do: the encoder by runs, the decoder without fuel, the split by pieces.
-/

namespace Sys2Proof.Machine

/-! ## The encoder, by runs -/

/-- The runs of `encode(P)` with the literals `lits` already in the open run: cut at each zero and after every
254th literal (R81, R89 (a)). -/
def encodeRuns : Bytes → Bytes → List Bytes
  | [], lits => [lits]
  | b :: P, lits =>
    if b = 0 then lits :: encodeRuns P []
    else if lits.length + 1 = 254 then (lits ++ [b]) :: encodeRuns P []
    else encodeRuns P (lits ++ [b])

@[simp] theorem stuffedBytes_nil : stuffedBytes [] = [] := rfl

@[simp] theorem stuffedBytes_cons (r : Bytes) (rs : List Bytes) :
    stuffedBytes (r :: rs) = runBytes r ++ stuffedBytes rs := by
  simp [stuffedBytes]

/-- Overwriting the placeholder of the open run closes it. -/
theorem set_placeholder (done lits : Bytes) (v : Byte) :
    (done ++ 0 :: lits).set done.length v = done ++ v :: lits := by
  simp

theorem encodeClose_eq (done lits : Bytes) :
    encodeClose (done ++ 0 :: lits, done.length, lits.length + 1) =
      ((done ++ runBytes lits) ++ 0 :: [], (done ++ runBytes lits).length, 1) := by
  simp [encodeClose, encodeSeal, runBytes]

/-- R81's loop from any point: what is done, the placeholder, and the open run's literals. -/
theorem encode_loop (P done lits : Bytes) :
    encodeSeal (P.foldl encodeStep (done ++ 0 :: lits, done.length, lits.length + 1)) =
    done ++ stuffedBytes (encodeRuns P lits) := by
  induction P generalizing done lits with
  | nil => simp [encodeRuns, runBytes, encodeSeal]
  | cons b P ih =>
    simp only [List.foldl_cons, encodeRuns]
    by_cases hb : b = 0
    · have hs : encodeStep (done ++ 0 :: lits, done.length, lits.length + 1) b =
          ((done ++ runBytes lits) ++ 0 :: [], (done ++ runBytes lits).length, ([] : Bytes).length + 1) := by
        simp only [encodeStep, hb, if_true, encodeClose_eq, List.length_nil, Nat.zero_add]
      rw [hs, ih, if_pos hb, stuffedBytes_cons, List.append_assoc]
    · rw [if_neg hb]
      have hg : (done ++ 0 :: lits) ++ [b] = done ++ 0 :: (lits ++ [b]) := by simp
      by_cases hm : lits.length + 1 = 254
      · have hs : encodeStep (done ++ 0 :: lits, done.length, lits.length + 1) b =
            ((done ++ runBytes (lits ++ [b])) ++ 0 :: [], (done ++ runBytes (lits ++ [b])).length,
              ([] : Bytes).length + 1) := by
          have he := encodeClose_eq done (lits ++ [b])
          simp only [List.length_append, List.length_cons, List.length_nil, Nat.zero_add] at he
          simp only [encodeStep, if_neg hb, hg, maxCode]
          rw [if_pos (by omega), he]
          simp
        rw [hs, ih, if_pos hm, stuffedBytes_cons, List.append_assoc]
      · have hs : encodeStep (done ++ 0 :: lits, done.length, lits.length + 1) b =
            (done ++ 0 :: (lits ++ [b]), done.length, (lits ++ [b]).length + 1) := by
          simp only [encodeStep, if_neg hb, hg, maxCode]
          rw [if_neg (by omega)]
          simp
        rw [hs, ih, if_neg hm]

/-- The encoder writes the runs of its payload, one after another. -/
theorem fcEncode_eq_runs (P : Bytes) : fcEncode P = stuffedBytes (encodeRuns P []) :=
  encode_loop P [] []

/-! ## The decoder, without fuel -/

/-- Enough fuel is enough. -/
theorem decodeLoop_fuel (n m : Nat) (S out : Bytes) (hn : S.length ≤ n) (hm : S.length ≤ m) :
    decodeLoop n S out = decodeLoop m S out := by
  induction n generalizing m S out with
  | zero =>
    have : S = [] := List.eq_nil_of_length_eq_zero (by omega)
    subst this
    cases m <;> rfl
  | succ n ih =>
    cases S with
    | nil => cases m <;> rfl
    | cons c rest =>
      cases m with
      | zero => simp at hm
      | succ m =>
        simp only [List.length_cons] at hn hm
        simp only [decodeLoop]
        split
        · rfl
        · split
          · rfl
          · exact ih _ _ _ (by simp; omega) (by simp; omega)

/-- The output so far is only prepended. -/
theorem decodeLoop_out (n : Nat) (S out : Bytes) :
    decodeLoop n S out = (decodeLoop n S []).map (out ++ ·) := by
  induction n generalizing S out with
  | zero => cases S <;> simp [decodeLoop]
  | succ n ih =>
    cases S with
    | nil => simp [decodeLoop]
    | cons c rest =>
      simp only [decodeLoop]
      split
      · rfl
      · split
        · rfl
        · rw [ih, ih (out := [] ++ _ ++ _)]
          simp [Option.map_map, Function.comp_def]

@[simp] theorem fcDecode_nil : fcDecode [] = some [] := rfl

/-- R85's loop body, as an equation: one code byte, its literals, the implicit zero, and the rest. -/
theorem fcDecode_cons (code : Byte) (rest : Bytes) :
    fcDecode (code :: rest) =
      if code = 0 then none
      else if rest.length < code.toNat - 1 then none
      else (fcDecode (rest.drop (code.toNat - 1))).map fun P =>
        rest.take (code.toNat - 1) ++
          (if code.toNat ≠ 255 ∧ rest.drop (code.toNat - 1) ≠ [] then [0] else []) ++ P := by
  rw [fcDecode, List.length_cons]
  simp only [decodeLoop]
  split
  · rfl
  · split
    · rfl
    · rw [decodeLoop_out, fcDecode,
        decodeLoop_fuel rest.length (rest.drop (code.toNat - 1)).length _ _ (by simp) (by simp)]
      simp [maxCode]

/-! ## The split at zero bytes -/

@[simp] theorem splitSegments_nil : splitSegments [] = ([], []) := rfl

theorem splitSegments_zero (B : Bytes) :
    splitSegments (0 :: B) = ([] :: (splitSegments B).1, (splitSegments B).2) := by
  simp [splitSegments, delim]

theorem splitSegments_last {b : Byte} (hb : b ≠ 0) {B : Bytes} (h : (splitSegments B).1 = []) :
    splitSegments (b :: B) = ([], b :: (splitSegments B).2) := by
  have hd : ¬b = delim := hb
  simp only [splitSegments, if_neg hd, h]

theorem splitSegments_more {b : Byte} (hb : b ≠ 0) {B p : Bytes} {ps : List Bytes}
    (h : (splitSegments B).1 = p :: ps) :
    splitSegments (b :: B) = ((b :: p) :: ps, (splitSegments B).2) := by
  have hd : ¬b = delim := hb
  simp only [splitSegments, if_neg hd, h]

/-- A zero-free string is one unfinished piece. -/
theorem splitSegments_zeroFree {B : Bytes} (h : (0 : Byte) ∉ B) : splitSegments B = ([], B) := by
  induction B with
  | nil => rfl
  | cons b B ih =>
    simp only [List.mem_cons, not_or] at h
    have := ih h.2
    rw [splitSegments_last (Ne.symm h.1) (by rw [this]), this]

/-- A zero-free piece and its delimiter come off the front. -/
theorem splitSegments_piece {p : Bytes} (h : (0 : Byte) ∉ p) (B : Bytes) :
    splitSegments (p ++ 0 :: B) = (p :: (splitSegments B).1, (splitSegments B).2) := by
  induction p with
  | nil => exact splitSegments_zero B
  | cons b p ih =>
    simp only [List.mem_cons, not_or] at h
    rw [List.cons_append, splitSegments_more (Ne.symm h.1) (by rw [ih h.2]), ih h.2]

end Sys2Proof.Machine
end

