-- ==== Sys2Proof/Laws/KeyDerivation.lean ====
section
/-!
SUPPORT. Lengths and equations of the walk, the partition and SHA-512's padding.
-/

namespace Sys2Proof.Machine

/-! ## The walk -/

@[simp] theorem length_walkFrom (d : Digest) (n i c : Nat) : (walkFrom d n i c).length = n := by
  induction n generalizing i c with
  | zero => rfl
  | succ n ih => simp [walkFrom, ih]

@[simp] theorem length_walk (c0 : Nat) (d : Digest) : (walk c0 d).length = 44 := by
  simp [walk, kdfSteps]

/-- One iteration of R133. -/
theorem walkFrom_succ (d : Digest) (n i c : Nat) :
    walkFrom d (n + 1) i c =
      digestAt d (c + (digestAt d c).toNat) ::
        walkFrom d n (i + 1) (c + (digestAt d (c + (digestAt d c).toNat + i)).toNat) := rfl

/-- "c is only ever used modulo 64" (R142). -/
theorem digestAt_congr (d : Digest) {m n : Nat} (h : m % 64 = n % 64) : digestAt d m = digestAt d n := by
  simp only [digestAt, h]

/-! ## The partition -/

/-- Key and nonce together have one byte per visited position (R134). -/
theorem length_partition (np : List Nat) (out : Bytes) :
    (partition np out).1.length + (partition np out).2.length = 44 := by
  have h := List.length_eq_length_filter_add (l := visitedPositions) (fun p => np.contains p)
  simp only [visitedPositions, List.length_range, kdfSteps] at h
  simp only [partition, List.length_map, visitedPositions, kdfSteps]
  omega

/-- The KN packet is 44 bytes whatever the parameters (R36, R130). -/
theorem length_derived_packet (cfg : Config) (M : Bytes) :
    (knPacket (derive cfg M).1 (derive cfg M).2).length = 44 := by
  simp only [knPacket, List.length_append, derive]
  exact length_partition _ _

/-! ## SHA-512's padding -/

@[simp] theorem length_serBe {w : Nat} (n : Nat) (v : BitVec w) : (serBe n v).length = n := by
  simp [serBe]

/-- `z = (111 - |M|) mod 128` makes the padded length a multiple of 128 (R136). -/
theorem padZeros_spec (len : Nat) : (len + 1 + padZeros len + 16) % 128 = 0 ∧ padZeros len < 128 := by
  unfold padZeros
  omega

theorem length_shaPad (M : Bytes) : (shaPad M).length = 128 * ((M.length + 17 + 127) / 128) := by
  have h := padZeros_spec M.length
  simp only [shaPad, serBe128, List.length_append, length_zeros, length_serBe, List.length_cons, List.length_nil]
  omega

end Sys2Proof.Machine
end

