-- ==== Sys2Proof/Laws/Outcomes.lean ====
section
/-!
SUPPORT. What a command, a transaction and a step can do, each said once as a list of cases.
-/

namespace Sys2Proof.Machine

/-- Everything a command's rule can end in (R160): OK, or one of the outcomes with exactly the effect of its row. -/
theorem commandRule_cases (i : Instr) (s : State) :
    (commandRule i s).code = .ok ∧ (commandRule i s).fault = s.fault ∨
    ((i = .fcEnc ∨ i = .fcFrame ∨ i = .fcDec ∨ i = .fcSplit ∨ i = .scEncrypt ∨ i = .scDecrypt ∨ i = .kdDerive) ∧
        commandRule i s = { s with code := .overflow } ∧ ¬ AllUnbounded s.cfg) ∨
    (i = .fcDec ∧ fcDecode s.ibuf = none ∧ commandRule i s = { s with ibuf := [], code := .malformed }) ∨
    ((i = .scEncrypt ∨ i = .scDecrypt) ∧ s.sce.valid = false ∧ commandRule i s = { s with ibuf := [], code := .nokey }) ∨
    (i = .scInit ∧ s.ibuf.length ≠ 44 ∧
        commandRule i s = { s with sce := State.reset.sce, ibuf := [], fault := true, code := .precond }) := by
  have hd : ∀ ps, ((deliver ps s).code = .ok ∧ (deliver ps s).fault = s.fault) ∨
      (deliver ps s = { s with code := .overflow } ∧ ¬ AllUnbounded s.cfg) := by
    intro ps
    cases h : fits s ps
    · right; refine ⟨deliver_overflow h, fun hu => ?_⟩
      rw [fits_of_unbounded hu] at h; cases h
    · left; rw [deliver_fits h]; exact ⟨rfl, rfl⟩
  cases i
  case bufClr => left; exact ⟨rfl, rfl⟩
  case fcEnc => rcases hd [fcEncode s.ibuf] with h | h; exact .inl h; exact .inr (.inl ⟨by simp, h⟩)
  case fcFrame => rcases hd [fcEncode s.ibuf ++ [delim]] with h | h; exact .inl h; exact .inr (.inl ⟨by simp, h⟩)
  case fcDec =>
    simp only [commandRule, operand]
    cases hr : fcDecode s.ibuf with
    | none => right; right; left; exact ⟨by simp, by simp, rfl⟩
    | some r => rcases hd [r] with h | h; exact .inl h; exact .inr (.inl ⟨by simp, h⟩)
  case fcSplit =>
    simp only [commandRule]
    by_cases h : admits s.cfg.carryCap (splitSegments (s.carry ++ s.ibuf)).2.length = true ∧
        fits s (splitSegments (s.carry ++ s.ibuf)).1 = true
    · rw [splitChunk_ok h.1 h.2]; left; exact ⟨rfl, rfl⟩
    · right; left
      refine ⟨by simp, ?_, ?_⟩
      · rw [not_and_or, Bool.not_eq_true, Bool.not_eq_true] at h; exact splitChunk_overflow h
      · intro hu; exact h ⟨by rw [hu.2.2.2]; rfl, fits_of_unbounded hu _⟩
  case fcFlush => left; exact ⟨rfl, rfl⟩
  case scInit =>
    by_cases h : s.ibuf.length = 44
    · left; simp only [commandRule]; rw [initCipher_ok h]; exact ⟨rfl, rfl⟩
    · right; right; right; right; exact ⟨rfl, h, initCipher_fault h⟩
  case scErase => left; exact ⟨rfl, rfl⟩
  case kdDerive =>
    simp only [commandRule]
    cases h : fits s [zeros 44]
    · right; left; refine ⟨by simp, deriveOperand_overflow h, fun hu => ?_⟩
      rw [fits_of_unbounded hu] at h; cases h
    · left; rw [deriveOperand_ok h]; exact ⟨rfl, rfl⟩
  all_goals
    simp only [commandRule]
    cases hv : s.sce.valid
    · right; right; right; left; exact ⟨by simp, by simp, cryptOperand_nokey hv⟩
    · cases h : fits s [zeros s.ibuf.length]
      · right; left; refine ⟨by simp, cryptOperand_overflow hv h, fun hu => ?_⟩
        rw [fits_of_unbounded hu] at h; cases h
      · left; rw [cryptOperand_ok hv h]; exact ⟨rfl, rfl⟩

/-- Everything one transaction can do: nothing (a command in the fault state), a command's rule, ERR_ILLEGAL, an
accepted push, a value given back with nothing else changed, the head packet taken, or reset. -/
theorem performState_cases (x : Transaction) (s : State) :
    (performState x s = s ∧ s.fault = true ∧ ∃ w, x = .cmd w) ∨
    (∃ w i, x = .cmd w ∧ decode w = .ok i ∧ s.fault = false ∧ performState x s = commandRule i s) ∨
    (∃ w, x = .cmd w ∧ s.fault = false ∧ performState x s = { s with code := .illegal }) ∨
    (∃ b, x = .push b ∧ s.fault = false ∧ admits s.cfg.ibufCap (s.ibuf.length + 1) = true ∧
      performState x s = { s with ibuf := s.ibuf ++ [b], returned := s.returned ++ [.accepted true] }) ∨
    (∃ r, x ≠ .reset ∧ (∀ w, x ≠ .cmd w) ∧ performState x s = { s with returned := s.returned ++ [r] }) ∨
    (∃ p ps, x = .pop ∧ s.oq = p :: ps ∧ performState x s = { s with oq := ps, returned := s.returned ++ [.packet p] }) ∨
    (x = .reset ∧ performState x s = { State.reset with cfg := s.cfg, pending := s.pending, returned := s.returned }) := by
  cases x with
  | push b =>
    by_cases h : s.fault = true ∨ admits s.cfg.ibufCap (s.ibuf.length + 1) = false
    · right; right; right; right; left; exact ⟨_, by simp, by simp, hostPush_refused b h⟩
    · rw [not_or, Bool.not_eq_true, Bool.not_eq_false] at h
      right; right; right; left; exact ⟨b, rfl, h.1, h.2, hostPush_ok b h.1 h.2⟩
  | cmd w =>
    by_cases h : s.fault = true
    · left; exact ⟨commandState_faulted w h, h, w, rfl⟩
    · rw [Bool.not_eq_true] at h
      right
      cases hd : decode w with
      | ok i => left; exact ⟨w, i, rfl, hd, h, commandState_ok h hd⟩
      | error e => right; left; exact ⟨w, rfl, h, commandState_illegal h hd⟩
  | pop =>
    right; right; right; right
    by_cases h : s.oq = []
    · left; exact ⟨_, by simp, by simp, hostPop_empty h⟩
    · obtain ⟨p, ps, h⟩ := List.exists_cons_of_ne_nil h
      right; left; exact ⟨p, ps, rfl, h, hostPop_head h⟩
  | status => right; right; right; right; left; exact ⟨_, by simp, by simp, rfl⟩
  | reset => right; right; right; right; right; right; exact ⟨rfl, rfl⟩

/-- One step with a transaction issued. -/
theorem step_issued {s : State} {x : Transaction} {xs : List Transaction} (h : s.pending = x :: xs) :
    step s = .next { performState x s with pending := xs } := by
  rw [step_eq, stepState, h]
  exact congrArg _ (performState_pending x s xs)

/-- The next state of a running command is its rule's. -/
theorem eq_commandRule_of_next {i : Instr} {s t : State} (hf : s.fault = false) (h : exec i s = .next t) :
    t = commandRule i s := by
  rw [exec_running i hf] at h
  injection h with h
  exact h.symm

end Sys2Proof.Machine
end

