-- ==== Sys2Proof/Laws/PerInstr.lean ====
section
/-!
SUPPORT. The per-instruction family: one lemma per constructor of Instr about its command byte.
-/

namespace Sys2Proof.Laws.UnitField

open Sys2Proof

/-- Field UNIT of a command's byte is the number of its unit (R51, R53), and the command is well formed. -/
def Statement (i : Instr) : Prop := commandUnit (encode i) = unitNumber (instrUnit i) ∧ i.wf = true

theorem bufClr : Statement .bufClr := ⟨rfl, rfl⟩
theorem fcEnc : Statement .fcEnc := ⟨rfl, rfl⟩
theorem fcFrame : Statement .fcFrame := ⟨rfl, rfl⟩
theorem fcDec : Statement .fcDec := ⟨rfl, rfl⟩
theorem fcSplit : Statement .fcSplit := ⟨rfl, rfl⟩
theorem fcFlush : Statement .fcFlush := ⟨rfl, rfl⟩
theorem scInit : Statement .scInit := ⟨rfl, rfl⟩
theorem scEncrypt : Statement .scEncrypt := ⟨rfl, rfl⟩
theorem scDecrypt : Statement .scDecrypt := ⟨rfl, rfl⟩
theorem scErase : Statement .scErase := ⟨rfl, rfl⟩
theorem kdDerive : Statement .kdDerive := ⟨rfl, rfl⟩

end Sys2Proof.Laws.UnitField
end

