-- ==== Sys2Proof/Laws/StreamCipher.lean ====
section
/-!
SUPPORT. What the per-byte step and xor_stream do, and the position of an engine on its stream.
-/

namespace Sys2Proof.Machine

/-! ## The per-byte step -/

/-- OFF = 64: a fresh block is computed and its byte 0 used (R104). -/
theorem nextKeystreamByte_fresh (bf : BlockFn) {c : Cipher} (h : c.off = 64) :
    nextKeystreamByte bf c =
      ((blockFnApply bf c.key c.nonce c.ctr)[0],
       { c with block := blockFnApply bf c.key c.nonce c.ctr, ctr := c.ctr + 1, off := 1 }) := by
  have he : ensureBlock bf c = freshBlock bf c := if_pos h
  simp only [nextKeystreamByte, he]
  rfl

/-- OFF < 64: `BLOCK[OFF]`, and OFF advances (R104). -/
theorem nextKeystreamByte_within (bf : BlockFn) {c : Cipher} (h : c.off.val < 64) :
    nextKeystreamByte bf c = (c.block[c.off.val], { c with off := ⟨c.off.val + 1, by omega⟩ }) := by
  have he : ensureBlock bf c = c := if_neg fun e => by
    rw [e] at h
    exact absurd h (by decide)
  simp only [nextKeystreamByte, he]

/-- The two cases of the per-byte step cover every offset. -/
theorem off_cases (c : Cipher) : c.off = 64 ∨ c.off.val < 64 := by
  by_cases h : c.off = 64
  · exact .inl h
  · refine .inr ?_
    have h1 := c.off.isLt
    have h2 : c.off.val ≠ 64 := fun e => h (Fin.ext e)
    omega

/-- "KEY and NONCE are never changed" (R105), and SC_VALID neither. -/
theorem nextKeystreamByte_keys (bf : BlockFn) (c : Cipher) :
    (nextKeystreamByte bf c).2.key = c.key ∧ (nextKeystreamByte bf c).2.nonce = c.nonce ∧
      (nextKeystreamByte bf c).2.valid = c.valid := by
  rcases off_cases c with h | h
  · simp [nextKeystreamByte_fresh bf h]
  · simp [nextKeystreamByte_within bf h]

/-! ## xor_stream -/

@[simp] theorem xorStream_nil (bf : BlockFn) (c : Cipher) : xorStream bf c [] = ([], c) := rfl

theorem xorStream_cons (bf : BlockFn) (c : Cipher) (x : Byte) (X : Bytes) :
    xorStream bf c (x :: X) =
      ((x ^^^ (nextKeystreamByte bf c).1) :: (xorStream bf (nextKeystreamByte bf c).2 X).1,
       (xorStream bf (nextKeystreamByte bf c).2 X).2) := rfl

/-- `|Y| = |X|` (R104). -/
@[simp] theorem length_xorStream (bf : BlockFn) (c : Cipher) (X : Bytes) :
    (xorStream bf c X).1.length = X.length := by
  induction X generalizing c with
  | nil => rfl
  | cons x X ih => rw [xorStream_cons]; simp [ih]

/-- The stream goes on from where it stands. -/
theorem xorStream_append (bf : BlockFn) (c : Cipher) (X Y : Bytes) :
    xorStream bf c (X ++ Y) =
      ((xorStream bf c X).1 ++ (xorStream bf (xorStream bf c X).2 Y).1,
       (xorStream bf (xorStream bf c X).2 Y).2) := by
  induction X generalizing c with
  | nil => rfl
  | cons x X ih => rw [List.cons_append, xorStream_cons, xorStream_cons, ih]; rfl

theorem xorStream_keys (bf : BlockFn) (c : Cipher) (X : Bytes) :
    (xorStream bf c X).2.key = c.key ∧ (xorStream bf c X).2.nonce = c.nonce ∧
      (xorStream bf c X).2.valid = c.valid := by
  induction X generalizing c with
  | nil => exact ⟨rfl, rfl, rfl⟩
  | cons x X ih =>
    rw [xorStream_cons]
    obtain ⟨h1, h2, h3⟩ := ih (nextKeystreamByte bf c).2
    obtain ⟨k1, k2, k3⟩ := nextKeystreamByte_keys bf c
    exact ⟨h1.trans k1, h2.trans k2, h3.trans k3⟩

/-! ## The position on the stream -/

/-- A loaded engine stands at position 0 (R101). -/
theorem loadedCipher_atPosition (bf : BlockFn) (kn : Bytes) : (loadedCipher kn).AtPosition bf 0 := by
  simp [Cipher.AtPosition, loadedCipher]

/-- At position n the next keystream byte is KS(n), and the position becomes n + 1 (R21 (c), R103). -/
theorem nextKeystreamByte_position {bf : BlockFn} {n : Nat} {c : Cipher} (h : c.AtPosition bf n) :
    (nextKeystreamByte bf c).1 = keystream bf c.key c.nonce n ∧
      (nextKeystreamByte bf c).2.AtPosition bf (n + 1) := by
  unfold Cipher.AtPosition at h
  by_cases hn : n % 64 = 0
  · have hoff : c.off = 64 := by
      split at h
      · exact h.2.1
      · refine Fin.ext (h.2.1.trans ?_)
        show _ = 64
        omega
    have hctr : c.ctr = BitVec.ofNat 32 (n / 64) := by
      split at h
      · rename_i h0
        rw [h.1, h0]
        rfl
      · rw [h.1]
        congr 1
        omega
    rw [nextKeystreamByte_fresh bf hoff]
    refine ⟨?_, ?_⟩
    · simp only [keystream, hctr, hn]
    · have hk : (n + 1 + 63) / 64 = n / 64 + 1 := by omega
      simp only [Cipher.AtPosition, Nat.add_one_ne_zero, if_false, hk, hctr, Nat.add_sub_cancel]
      refine ⟨?_, ?_, trivial⟩
      · rw [BitVec.ofNat_add]; rfl
      · show 1 = _
        omega
  · have hn0 : n ≠ 0 := fun e => hn (by rw [e])
    rw [if_neg hn0] at h
    obtain ⟨hctr, hoff, hblk⟩ := h
    have hdiv : (n + 63) / 64 - 1 = n / 64 := by omega
    have hoff' : c.off.val = n % 64 := by
      rw [hoff, hdiv]
      omega
    rw [nextKeystreamByte_within bf (by omega)]
    refine ⟨?_, ?_⟩
    · simp only [keystream, hblk, hdiv, hoff']
    · have hk : (n + 1 + 63) / 64 = (n + 63) / 64 := by omega
      simp only [Cipher.AtPosition, Nat.add_one_ne_zero, if_false, hk]
      refine ⟨hctr, ?_, hblk⟩
      rw [hoff, hdiv]
      omega

end Sys2Proof.Machine
end

