-- ==== Sys2Proof/Tests/Slice0.lean ====
section
/-!
SUPPORT. Small tests whose expected values come from spec/95_test_vectors.md (V<n>) or are written out by hand from
a rule, and a witness for the hypotheses of every statement that has some.
-/

namespace Sys2Proof.Tests

open Sys2Proof Sys2Proof.Machine

/-! ## States the tests start from -/

/-- The next state of a result. -/
def nextOf : Result → Option State
  | .next s => some s
  | .fault _ => none
  | .refused _ => none

/-- The reset state with this operand in IBUF. -/
def given (operand : Bytes) : State := { State.reset with ibuf := operand }

/-- The all-zero KN packet loaded by SC.INIT (V23, step 0), and this operand in IBUF. -/
def zeroKeyed (operand : Bytes) : State :=
  { State.reset with sce := { erasedCipher with valid := true }, ibuf := operand }

/-- The fault state entered from reset (V77). -/
def faulted : State := { State.reset with fault := true, code := .precond }

/-- The reference parameters with room for one packet. -/
def onePacket : Config := { Config.reference with oqPktsCap := .atMost 1 }

/-- V78 and V83: OQ_PKTS_CAP = 1 and the packet `02 11` queued. -/
def fullQueue (operand : Bytes) : State :=
  { State.reset with cfg := onePacket, oq := [[0x02, 0x11]], ibuf := operand }

/-- These transactions issued and not yet performed. -/
def issued (ts : List Transaction) (s : State) : State := { s with pending := ts }

/-- What most tests look at: OQ, IBUF and CODE of the next state. -/
def resultOf (r : Result) : Option (List Bytes × Bytes × Code) :=
  (nextOf r).map fun t => (t.oq, t.ibuf, t.code)

/-! ## Decoding: each word written from R51's fields UNIT and FN and R53's row -/

theorem test_decode_bufClr : decode 0b0000_0001 = .ok .bufClr := by decide
theorem test_decode_fcEnc : decode 0b0001_0000 = .ok .fcEnc := by decide
theorem test_decode_fcFrame : decode 0b0001_0001 = .ok .fcFrame := by decide
theorem test_decode_fcDec : decode 0b0001_0010 = .ok .fcDec := by decide
theorem test_decode_fcSplit : decode 0b0001_0011 = .ok .fcSplit := by decide
theorem test_decode_fcFlush : decode 0b0001_0100 = .ok .fcFlush := by decide
theorem test_decode_scInit : decode 0b0010_0000 = .ok .scInit := by decide
theorem test_decode_scEncrypt : decode 0b0010_0001 = .ok .scEncrypt := by decide
theorem test_decode_scDecrypt : decode 0b0010_0010 = .ok .scDecrypt := by decide
theorem test_decode_scErase : decode 0b0010_0011 = .ok .scErase := by decide
theorem test_decode_kdDerive : decode 0b0011_0000 = .ok .kdDerive := by decide

/-- V73 and R56: the boundary bytes of every illegal range are refused, by name. -/
theorem test_decode_illegal :
    ∀ w ∈ ([0x00, 0x02, 0x0F, 0x15, 0x1F, 0x24, 0x2F, 0x31, 0x40, 0x80, 0xFF] : Bytes),
      decode w = .error (.illegalCommand w) := by decide

/-- R53: no two rows of the opcode map share a byte. -/
theorem test_opcodeMap_rows_distinct : (opcodeMap.map Prod.fst).Nodup := by decide

/-- P1's command bytes "30 20 21 11 13 12 20 22 23" of spec/95_test_vectors.md. -/
theorem test_encode_program_p1 :
    ([.kdDerive, .scInit, .scEncrypt, .fcFrame, .fcSplit, .fcDec, .scInit, .scDecrypt, .scErase] : List Instr).map
      encode = [0x30, 0x20, 0x21, 0x11, 0x13, 0x12, 0x20, 0x22, 0x23] := by decide

theorem test_decodeTableWord :
    decodeTableWord 8 0x14 = some .fcFlush ∧ decodeTableWord 8 0x02 = none ∧ decodeTableWord 16 0x14 = none := by
  decide

/-- A table word placed by the host is the very next command: FC.ENC of the empty payload is `01` (V1). -/
theorem test_withFetchWord : resultOf (step (State.reset.withFetchWord 8 0x10)) = some ([[0x01]], [], .ok) := by
  decide

/-! ## WellFormed: an ill-formed parameter for each check of R6 and R7, refused -/

theorem test_reference_parameters_wf : Config.reference.wf = true := by decide

theorem test_ibufCap_43_refused : ({ Config.reference with ibufCap := .atMost 43 } : Config).wf = false := by decide

theorem test_ibufCap_44_accepted : ({ Config.reference with ibufCap := .atMost 44 } : Config).wf = true := by decide

theorem test_oqPktsCap_0_refused : ({ Config.reference with oqPktsCap := .atMost 0 } : Config).wf = false := by decide

theorem test_oqBytesCap_43_refused : ({ Config.reference with oqBytesCap := .atMost 43 } : Config).wf = false := by
  decide

theorem test_carryCap_0_accepted : ({ Config.reference with carryCap := .atMost 0 } : Config).wf = true := by decide

theorem test_noncePos_eleven_refused :
    ({ Config.reference with kdfNoncePos := [3, 7, 9, 12, 14, 17, 21, 24, 26, 28, 33] } : Config).wf = false := by
  decide

theorem test_noncePos_repeated_refused :
    ({ Config.reference with kdfNoncePos := [3, 3, 9, 12, 14, 17, 21, 24, 26, 28, 33, 42] } : Config).wf = false := by
  decide

theorem test_noncePos_44_refused :
    ({ Config.reference with kdfNoncePos := [3, 7, 9, 12, 14, 17, 21, 24, 26, 28, 33, 44] } : Config).wf = false := by
  decide

/-! ## Transactions -/

/-- V82: the 45th byte is refused at IBUF_CAP = 44. -/
theorem test_push_full :
    hostPush 0 { given (zeros 44) with cfg := { Config.reference with ibufCap := .atMost 44 } } =
      { given (zeros 44) with
        cfg := { Config.reference with ibufCap := .atMost 44 }, returned := [.accepted false] } := by decide

/-- V82: the 44th is accepted. -/
theorem test_push_last :
    (hostPush 0x99 { given (zeros 43) with cfg := { Config.reference with ibufCap := .atMost 44 } }).ibuf =
      zeros 43 ++ [0x99] := by decide

/-- V71: on an empty queue H_POP returns NONE; V66: an empty packet is a packet. -/
theorem test_pop :
    (hostPop State.reset).returned = [.noPacket] ∧
      (hostPop { State.reset with oq := [[], [0x41]] }).returned = [.packet []] ∧
      (hostPop { State.reset with oq := [[], [0x41]] }).oq = [[0x41]] := by decide

/-- The STATUS words of V71, V74, V23 step 0, V75, V78, P3 (s5) and V86. -/
theorem test_status_words :
    statusWord State.reset = 0x00000000 ∧
    statusWord { State.reset with code := .nokey } = 0x00000004 ∧
    statusWord (zeroKeyed []) = 0x00000010 ∧
    statusWord faulted = 0x0000000d ∧
    statusWord { fullQueue [0x22] with code := .overflow } = 0x00000022 ∧
    statusWord { faulted with oq := [[0x04, 0x11, 0x22, 0x33]] } = 0x0000002d ∧
    statusWord { zeroKeyed [] with code := .malformed } = 0x00000013 := by decide

/-- V72: an undefined byte sets CODE and keeps IBUF. -/
theorem test_illegal_keeps_ibuf :
    resultOf (step (issued [.cmd 0x00] (given [0xaa]))) = some ([], [0xaa], .illegal) := by decide

/-- V76's end: reset leaves the fault state. -/
theorem test_reset_leaves_fault_state :
    nextOf (step (issued [.reset] { faulted with oq := [[0x05]], carry := [0x41] })) = some State.reset := by decide

/-! ## Commands: at most two small tests each, on one step -/

/-- V85: the operand `70 77` is discarded. -/
theorem test_bufClr : resultOf (exec .bufClr (given [0x70, 0x77])) = some ([], [], .ok) := by decide

/-- P3: BUF.CLR in the fault state is refused. -/
theorem test_bufClr_refused : nextOf (exec .bufClr { faulted with oq := [[0x04]] }) =
    some { faulted with oq := [[0x04]] } := by decide

/-- V4. -/
theorem test_fcEnc :
    resultOf (exec .fcEnc (given [0x11, 0x22, 0x00, 0x33])) = some ([[0x03, 0x11, 0x22, 0x02, 0x33]], [], .ok) := by
  decide

/-- V78: no room, so nothing changes but CODE. -/
theorem test_fcEnc_overflow :
    nextOf (exec .fcEnc (fullQueue [0x22])) = some { fullQueue [0x22] with code := .overflow } := by decide

/-- P1: the frame of `05 e6`. -/
theorem test_fcFrame :
    resultOf (exec .fcFrame (given [0x05, 0xe6])) = some ([[0x03, 0x05, 0xe6, 0x00]], [], .ok) := by decide

/-- P4: the zeros of `00 e1 00` are stuffed away. -/
theorem test_fcFrame_zeros :
    resultOf (exec .fcFrame (given [0x00, 0xe1, 0x00])) = some ([[0x01, 0x02, 0xe1, 0x01, 0x00]], [], .ok) := by
  decide

/-- V58: a zero literal is copied. -/
theorem test_fcDec : resultOf (exec .fcDec (given [0x03, 0x00, 0x41])) = some ([[0x00, 0x41]], [], .ok) := by decide

/-- V83: a malformed operand is reported before the lack of room, and dropped. -/
theorem test_fcDec_malformed_first :
    resultOf (exec .fcDec (fullQueue [0x00])) = some ([[0x02, 0x11]], [], .malformed) := by decide

/-- V66: CARRY `02`, chunk `41 00 00 03 11`. -/
theorem test_fcSplit :
    (nextOf (exec .fcSplit { given [0x41, 0x00, 0x00, 0x03, 0x11] with carry := [0x02] })).map
      (fun t => (t.oq, t.carry, t.ibuf, t.code)) = some ([[0x02, 0x41], []], [0x03, 0x11], [], .ok) := by decide

/-- V81: the rest does not fit CARRY_CAP = 2, so not even the complete segment is pushed. -/
theorem test_fcSplit_overflow :
    (nextOf (exec .fcSplit
      { given [0x01, 0x00, 0x02, 0x03, 0x04] with cfg := { Config.reference with carryCap := .atMost 2 } })).map
      (fun t => (t.oq, t.carry, t.ibuf, t.code)) =
      some ([], [], [0x01, 0x00, 0x02, 0x03, 0x04], .overflow) := by decide

/-- V70: FC.FLUSH drops CARRY and leaves IBUF. -/
theorem test_fcFlush :
    (nextOf (exec .fcFlush { given [0xaa] with carry := [0x03, 0x11] })).map
      (fun t => (t.carry, t.ibuf, t.code)) = some ([], [0xaa], .ok) := by decide

/-- R101: of a KN packet of 32 bytes `11` and 12 bytes `22`, the key is the first 32 and the nonce the last 12. -/
theorem test_scInit :
    (nextOf (exec .scInit (given (List.replicate 32 0x11 ++ List.replicate 12 0x22)))).map
      (fun t => (t.sce, t.ibuf, t.code)) =
      some
        ({ key := Vector.replicate 32 0x11, nonce := Vector.replicate 12 0x22, ctr := 0,
           block := Vector.replicate 64 0, off := 64, valid := true }, [], .ok) := by decide

/-- V75: 43 bytes are a precondition failure. -/
theorem test_scInit_short : nextOf (exec .scInit (given (zeros 43))) = some faulted := by decide

/-- V23 step 1: the first three bytes of the zero key's stream; CTR = 1, OFF = 3. -/
theorem test_scEncrypt :
    (nextOf (exec .scEncrypt (zeroKeyed [0x00, 0x00, 0x00]))).map
      (fun t => (t.oq, t.sce.ctr, t.sce.off.val, t.code)) = some ([[0x76, 0xb8, 0xe0]], 1, 3, .ok) := by
  decide +kernel

/-- V28: the counter wraps. -/
theorem test_scEncrypt_wraps :
    (nextOf (exec .scEncrypt
      { zeroKeyed [0x00, 0x00] with sce := { erasedCipher with valid := true, ctr := 0xFFFFFFFF } })).map
      (fun t => (t.oq, t.sce.ctr, t.sce.off.val)) = some ([[0xac, 0xe4]], 0, 2) := by decide +kernel

/-- V23 steps 4 and 5: at CTR = 1, OFF = 64, of `00 ff 0f` byte 0 gives `9f` and the next two `f8 e8`. -/
theorem test_scDecrypt :
    (nextOf (exec .scDecrypt
      { zeroKeyed [0x00, 0xff, 0x0f] with sce := { erasedCipher with valid := true, ctr := 1 } })).map
      (fun t => (t.oq, t.sce.ctr, t.sce.off.val)) = some ([[0x9f, 0xf8, 0xe8]], 2, 3) := by decide +kernel

/-- V83: no key is reported before the lack of room. -/
theorem test_scDecrypt_nokey_first :
    resultOf (exec .scDecrypt (fullQueue [0x78])) = some ([[0x02, 0x11]], [], .nokey) := by decide

/-- V84: SC.ERASE leaves IBUF. -/
theorem test_scErase : nextOf (exec .scErase (zeroKeyed [0xaa])) = some (given [0xaa]) := by decide

/-- V41: the KN packet of the empty message. -/
theorem test_kdDerive :
    resultOf (exec .kdDerive State.reset) =
      some
        ([[0xe1, 0x7e, 0x80, 0xbd, 0x41, 0x63, 0xda, 0x83, 0x87, 0xb9, 0xce, 0xa5, 0xda, 0x83, 0xd2, 0xd1,
           0xe1, 0x27, 0x87, 0xdc, 0xb0, 0xb0, 0x54, 0x6c, 0x7e, 0xda, 0x3c, 0xd2, 0x87, 0x47, 0x18, 0xa5,
           0xa9, 0xa5, 0xa5, 0x7e, 0x15, 0xbd, 0x41, 0xd2, 0x7e, 0xda, 0x7a, 0x41]], [], .ok) := by
  decide +kernel

/-- R166: no room for 44 bytes, so nothing changes but CODE. -/
theorem test_kdDerive_overflow :
    nextOf (exec .kdDerive (fullQueue [0x61])) = some { fullQueue [0x61] with code := .overflow } := by decide

/-! ## The functions behind them -/

/-- The quarter round of spec/95_test_vectors.md section 4.1. -/
theorem test_quarterWords :
    quarterWords 0x11111111 0x01020304 0x9b8d6f43 0x01234567 =
      (0xea2a92f4, 0xcb1cf8ce, 0x4581472e, 0x5881c4bb) := by decide +kernel

/-- The first and the last four bytes of V21, whose key bytes are 0, 1, .. 31: a wrong word order would show. -/
theorem test_chachaBlock :
    let b := (chachaBlock (Vector.ofFn fun t => BitVec.ofNat 8 t.val) #v[0, 0, 0, 9, 0, 0, 0, 0x4a, 0, 0, 0, 0] 1).toList
    b.take 4 = [0x10, 0xf1, 0xe7, 0xe4] ∧ b.drop 60 = [0xa2, 0x50, 0x3c, 0x4e] := by decide +kernel

/-- The digest of "abc" in V42, its first and last eight bytes. -/
theorem test_sha512 :
    (sha512 [0x61, 0x62, 0x63]).toList.take 8 = [0xdd, 0xaf, 0x35, 0xa1, 0x93, 0x61, 0x7a, 0xba] ∧
      (sha512 [0x61, 0x62, 0x63]).toList.drop 56 = [0x2a, 0x9a, 0xc9, 0x4f, 0xa5, 0x4c, 0xa4, 0x9f] := by
  decide +kernel

/-- R136's z at the lengths where the padding turns: 111 bytes need none, 112 need 127 (V44). -/
theorem test_padZeros : padZeros 111 = 0 ∧ padZeros 112 = 127 ∧ padZeros 0 = 111 := by decide

/-- V45: the walk on the digest with d[j] = j. -/
theorem test_walk :
    walk 42 (Vector.ofFn fun j => BitVec.ofNat 8 j.val) =
      [0x14, 0x3e, 0x3e, 0x00, 0x08, 0x22, 0x32, 0x24, 0x3c, 0x06, 0x26, 0x08, 0x30, 0x2a, 0x1a, 0x2c,
       0x24, 0x0e, 0x0e, 0x10, 0x18, 0x32, 0x02, 0x34, 0x0c, 0x16, 0x36, 0x18, 0x00, 0x3a, 0x2a, 0x3c,
       0x34, 0x1e, 0x1e, 0x20, 0x28, 0x02, 0x12, 0x04, 0x1c, 0x26, 0x06, 0x28] := by decide +kernel

/-- V45's nonce. -/
theorem test_partition :
    (partition Config.reference.kdfNoncePos
      [0x14, 0x3e, 0x3e, 0x00, 0x08, 0x22, 0x32, 0x24, 0x3c, 0x06, 0x26, 0x08, 0x30, 0x2a, 0x1a, 0x2c,
       0x24, 0x0e, 0x0e, 0x10, 0x18, 0x32, 0x02, 0x34, 0x0c, 0x16, 0x36, 0x18, 0x00, 0x3a, 0x2a, 0x3c,
       0x34, 0x1e, 0x1e, 0x20, 0x28, 0x02, 0x12, 0x04, 0x1c, 0x26, 0x06, 0x28]).2 =
      [0x00, 0x24, 0x06, 0x30, 0x1a, 0x0e, 0x32, 0x0c, 0x36, 0x00, 0x1e, 0x06] := by decide +kernel

/-- V12: one maximal run is followed by a last run of code 1. -/
theorem test_encode_maximal_run :
    fcEncode (List.replicate 254 0x41) = 0xff :: (List.replicate 254 0x41 ++ [0x01]) := by decide +kernel

/-- V61 and V63: a maximal last run needs its 254 literals. -/
theorem test_decode_maximal_run :
    fcDecode (0xff :: List.replicate 254 0x41) = some (List.replicate 254 0x41) ∧
      fcDecode (0xff :: List.replicate 253 0x41) = none := by decide +kernel

/-- R57: a listing line DO stands for PUSH, CMD and POP, and `b*n` for n pushes. -/
theorem test_listing :
    ((expandLine (.doCmd .fcEnc [(0x11, 2)] "t")).map (lineTransactions [])) =
      [some [.push 0x11, .push 0x11], some [.cmd 0x10], some [.pop]] := by decide

/-- P1's `PUSHS "pw"` is `70 77`; a text that is not ASCII has no transactions (log 18). -/
theorem test_listing_pushs :
    ((expandLine (.pushs ['p', 'w'])).map (lineTransactions [])) = [some [.push 0x70, .push 0x77]] ∧
      ((expandLine (.pushs ['é'])).map (lineTransactions [])) = [none] := by decide

/-! ## Witnesses: a concrete state meets the hypotheses of each statement, one per clause -/

theorem witness_IssuedTransactionsRunInOrder :
    (issued [.pop, .status] State.reset).pending = .pop :: [.status] ∧ State.reset.pending = [] := by decide

theorem witness_StepRunsTheDecodedCommand :
    (issued [.cmd 0x10] (given [0x11])).pending = .cmd 0x10 :: [] ∧ decode 0x10 = .ok .fcEnc ∧
      Instr.wf .fcEnc = true := by decide

theorem witness_EncodeDecodeAgree : Instr.wf .kdDerive = true ∧ decode 0x30 = .ok .kdDerive := by decide

/-- The boundary bytes of every range of R56. -/
theorem witness_IllegalBytesOnlyWriteCode :
    (issued [.cmd 0xFF] (given [0xaa])).pending = .cmd 0xFF :: [] ∧ (given [0xaa]).fault = false ∧
      ∀ w ∈ ([0x00, 0x02, 0x0F, 0x15, 0x1F, 0x24, 0x2F, 0x31, 0xFF] : Bytes), IllegalByte w := by
  unfold IllegalByte
  decide

theorem witness_FaultStateRefusesWork_cmd :
    faulted.fault = true ∧ (issued [.cmd 0x01] faulted).pending = .cmd 0x01 :: [] := by decide

theorem witness_FaultStateRefusesWork_push :
    faulted.fault = true ∧ (issued [.push 0x99] faulted).pending = .push 0x99 :: [] := by decide

theorem witness_FaultStateRefusesWork_pop :
    (issued [.pop] { faulted with oq := [[0x04]] }).fault = true ∧
      (issued [.pop] { faulted with oq := [[0x04]] }).pending = .pop :: [] ∧
      (issued [.pop] { faulted with oq := [[0x04]] }).oq = [0x04] :: [] ∧
      (issued [.pop] faulted).pending = .pop :: [] ∧ (issued [.pop] faulted).oq = [] := by decide

theorem witness_FaultStateRefusesWork_status_reset :
    faulted.fault = true ∧ (issued [.status] faulted).pending = .status :: [] ∧
      (issued [.reset] faulted).pending = .reset :: [] := by decide

/-- P3's faulted end: a queued packet is taken, and the run is not final. -/
theorem witness_FaultStateRefusesWork_run :
    ({ faulted with oq := [[0x04]] } : State).fault = true ∧ Transaction.reset ∉ [.cmd 0x01, .pop, .push 0x99] ∧
      after { faulted with oq := [[0x04]] } [.pop] = .next { faulted with returned := [.packet [0x04]] } ∧
      runView { faulted with oq := [[0x04]] } [] = some (.notFinal [[0x04]]) := ⟨rfl, by decide, rfl, rfl⟩

/-- The last byte that fits: |IBUF| = 43 at IBUF_CAP = 44. -/
theorem witness_PushAppendsOrIsRefused_accepted :
    let s := issued [.push 0] { given (zeros 43) with cfg := { Config.reference with ibufCap := .atMost 44 } }
    s.pending = .push 0 :: [] ∧ s.fault = false ∧ ∀ m, s.cfg.ibufCap = .atMost m → s.ibuf.length < m := by
  refine ⟨rfl, rfl, fun m h => ?_⟩
  injection h with h
  subst h
  decide

/-- The first byte that does not: |IBUF| = 44 at IBUF_CAP = 44. -/
theorem witness_PushAppendsOrIsRefused_refused :
    let s := issued [.push 0] { given (zeros 44) with cfg := { Config.reference with ibufCap := .atMost 44 } }
    s.pending = .push 0 :: [] ∧ (s.fault = true ∨ ∃ m, s.cfg.ibufCap = .atMost m ∧ m ≤ s.ibuf.length) :=
  ⟨rfl, .inr ⟨44, rfl, by decide⟩⟩

/-- The empty packet at the head, and the empty queue. -/
theorem witness_PopTakesTheHeadPacket :
    (issued [.pop] { State.reset with oq := [[], [0x41]] }).pending = .pop :: [] ∧
      (issued [.pop] { State.reset with oq := [[], [0x41]] }).oq = [] :: [[0x41]] ∧
      (issued [.pop] State.reset).pending = .pop :: [] ∧ (issued [.pop] State.reset).oq = [] := by decide

theorem witness_StatusReturnsItsValue : (issued [.status] faulted).pending = .status :: [] := by decide

theorem witness_ResetPutsEveryElementBack :
    (State.reset = State.reset) ∧
      (issued [.reset] { faulted with oq := [[0x04]] }).pending = .reset :: [] ∧
      step (issued [.reset] { faulted with oq := [[0x04]] }) = .next State.reset := ⟨rfl, rfl, rfl⟩

theorem witness_ResetCompletesInEveryState :
    (issued [.reset, .status] (zeroKeyed [0x41])).pending = .reset :: [.status] := by decide

/-- FAULT = 0: all that BUF.CLR, FC.FLUSH and SC.ERASE ask. -/
theorem witness_BufClrDiscardsTheOperand : (given [0x70, 0x77]).fault = false := by decide

theorem witness_FcFlushDropsTheCarry : ({ given [0xaa] with carry := [0x03, 0x11] } : State).fault = false := by
  decide

theorem witness_ScEraseErasesTheEngine : (zeroKeyed [0xaa]).fault = false := by decide

theorem witness_FcEncPushesTheStuffedForm :
    (given [0x22]).fault = false ∧ fits (given [0x22]) [fcEncode [0x22]] = true ∧
      (fullQueue [0x22]).fault = false ∧ fits (fullQueue [0x22]) [fcEncode [0x22]] = false := by decide

theorem witness_FcFramePushesTheFrame :
    (given [0x22]).fault = false ∧ fits (given [0x22]) [fcEncode [0x22] ++ [0]] = true ∧
      (fullQueue [0x22]).fault = false ∧ fits (fullQueue [0x22]) [fcEncode [0x22] ++ [0]] = false := by decide

theorem witness_FcDecDeliversOrRejects :
    (given [0x02, 0x41]).fault = false ∧ fcDecode (given [0x02, 0x41]).ibuf = some [0x41] ∧
      fits (given [0x02, 0x41]) [[0x41]] = true ∧
      (given [0x00]).fault = false ∧ fcDecode (given [0x00]).ibuf = none ∧
      (fullQueue [0x02, 0x41]).fault = false ∧ fcDecode (fullQueue [0x02, 0x41]).ibuf = some [0x41] ∧
      fits (fullQueue [0x02, 0x41]) [[0x41]] = false := by decide

/-- The rest `02 03` exactly fills CARRY_CAP = 2. -/
theorem witness_FcSplitDeliversTheSegments_fits :
    let s := { given [0x01, 0x00, 0x02, 0x03] with cfg := { Config.reference with carryCap := .atMost 2 } }
    s.fault = false ∧ Splits (s.carry ++ s.ibuf) [[0x01]] [0x02, 0x03] ∧
      (∀ m, s.cfg.carryCap = .atMost m → ([0x02, 0x03] : Bytes).length ≤ m) ∧ fits s [[0x01]] = true := by
  refine ⟨rfl, by unfold Splits; decide, fun m h => ?_, by decide⟩
  injection h with h
  subst h
  decide

/-- The rest `02 03 04` is one byte too long for CARRY_CAP = 2 (V81). -/
theorem witness_FcSplitDeliversTheSegments_overflow :
    let s := { given [0x01, 0x00, 0x02, 0x03, 0x04] with cfg := { Config.reference with carryCap := .atMost 2 } }
    s.fault = false ∧ Splits (s.carry ++ s.ibuf) [[0x01]] [0x02, 0x03, 0x04] ∧
      ((∃ m, s.cfg.carryCap = .atMost m ∧ m < ([0x02, 0x03, 0x04] : Bytes).length) ∨ fits s [[0x01]] = false) :=
  ⟨rfl, by unfold Splits; decide, .inl ⟨2, rfl, by decide⟩⟩

/-- The rest fits, the segment does not. -/
theorem witness_FcSplitDeliversTheSegments_queueFull :
    (fullQueue [0x41, 0x00]).fault = false ∧
      Splits ((fullQueue [0x41, 0x00]).carry ++ (fullQueue [0x41, 0x00]).ibuf) [[0x41]] [] ∧
      fits (fullQueue [0x41, 0x00]) [[0x41]] = false := by
  unfold Splits
  decide

theorem witness_StreamSplitsInOneWay : Splits [0x41, 0x00, 0x00, 0x03] [[0x41], []] [0x03] := by
  unfold Splits
  decide

/-- Exactly 44 bytes, and one fewer and one more. -/
theorem witness_ScInitLoadsOrFaults :
    (given (zeros 44)).fault = false ∧ (given (zeros 44)).ibuf.length = 44 ∧
      (given (zeros 43)).fault = false ∧ (given (zeros 43)).ibuf.length ≠ 44 ∧
      (given (zeros 45)).fault = false ∧ (given (zeros 45)).ibuf.length ≠ 44 := by decide

/-- A keyed engine with and without room, and one without a key. The same three meet SC.DECRYPT's hypotheses. -/
theorem witness_ScEncryptXorsTheOperand :
    (zeroKeyed [0x00]).fault = false ∧ (zeroKeyed [0x00]).sce.valid = true ∧
      fits (zeroKeyed [0x00]) [zeros 1] = true ∧
      (given [0x78]).fault = false ∧ (given [0x78]).sce.valid = false ∧
      ({ zeroKeyed [0x00] with cfg := onePacket, oq := [[]] } : State).fault = false ∧
      ({ zeroKeyed [0x00] with cfg := onePacket, oq := [[]] } : State).sce.valid = true ∧
      fits { zeroKeyed [0x00] with cfg := onePacket, oq := [[]] } [zeros 1] = false := by decide

theorem witness_ScDecryptIsTheSameOperation :
    (zeroKeyed [0xff, 0x0f]).fault = false ∧ (zeroKeyed [0xff, 0x0f]).sce.valid = true ∧
      fits (zeroKeyed [0xff, 0x0f]) [zeros 2] = true ∧
      (fullQueue [0x78]).fault = false ∧ (fullQueue [0x78]).sce.valid = false ∧
      ({ zeroKeyed [0x00] with cfg := onePacket, oq := [[]] } : State).fault = false ∧
      ({ zeroKeyed [0x00] with cfg := onePacket, oq := [[]] } : State).sce.valid = true ∧
      fits { zeroKeyed [0x00] with cfg := onePacket, oq := [[]] } [zeros 1] = false := by decide

/-- OQ_BYTES_CAP = 44 holds exactly one KN packet, and with one byte queued none. -/
theorem witness_KdDerivePushesTheKnPacket :
    let c := { Config.reference with oqBytesCap := .atMost 44 }
    ({ State.reset with cfg := c } : State).fault = false ∧ fits { State.reset with cfg := c } [zeros 44] = true ∧
      fits { State.reset with cfg := c, oq := [[0x41]] } [zeros 44] = false := by decide

theorem witness_OutcomesChangeWhatTheTableSays_illegal :
    (issued [.cmd 0x02] (given [0xaa])).pending = .cmd 0x02 :: [] ∧ (given [0xaa]).fault = false ∧
      step (issued [.cmd 0x02] (given [0xaa])) = .next { given [0xaa] with code := .illegal } ∧
      IllegalByte 0x02 :=
  ⟨rfl, rfl, rfl, by unfold IllegalByte; decide⟩

/-- One command for each of the outcomes 0, 2, 3, 4 and 5 of R160. -/
theorem witness_OutcomesChangeWhatTheTableSays :
    exec .bufClr (given [0x70]) = .next State.reset ∧
    exec .fcEnc (fullQueue [0x22]) = .next { fullQueue [0x22] with code := .overflow } ∧
    exec .fcDec (given [0x00]) = .next { State.reset with code := .malformed } ∧
    exec .scEncrypt (given [0x78]) = .next { State.reset with code := .nokey } ∧
    exec .scInit (given []) = .next faulted := ⟨rfl, rfl, rfl, rfl, rfl⟩

theorem witness_OverflowHasNoEffectAndRetries :
    (fullQueue [0x22]).fault = false ∧
      exec .fcEnc (fullQueue [0x22]) = .next { fullQueue [0x22] with code := .overflow } ∧
      (given [0x70]).fault = false ∧ exec .bufClr (given [0x70]) = .next State.reset ∧
      AllUnbounded (given [0x70]).cfg := ⟨rfl, rfl, rfl, rfl, rfl, rfl, rfl, rfl⟩

theorem witness_FaultEntryIsScInitsAlone :
    (issued [.cmd 0x20] (given (zeros 43))).fault = false ∧
      step (issued [.cmd 0x20] (given (zeros 43))) = .next faulted ∧ faulted.fault = true ∧
      (issued [.cmd 0x20] (given (zeros 43))).pending = .cmd 0x20 :: [] ∧
      (issued [.cmd 0x20] (given (zeros 43))).ibuf.length ≠ 44 := ⟨rfl, rfl, rfl, rfl, by decide⟩

/-- A state with a key loaded, a packet queued and a partial segment kept. -/
theorem witness_InvariantsKeptByEveryStep :
    let s := issued [.cmd 0x23] { zeroKeyed [0x11] with oq := [[0x02, 0x11]], carry := [0x41] }
    s.Inv ∧ step s = .next { given [0x11] with oq := [[0x02, 0x11]], carry := [0x41] } := by
  refine ⟨⟨⟨rfl, rfl, rfl, rfl⟩, ?_, ?_, ?_⟩, rfl⟩
  · unfold State.CarryZeroFree
    decide
  · unfold State.ErasedUnlessValid
    decide
  · unfold State.FaultCoherent
    decide

/-- A loaded engine at position 0. -/
theorem witness_StreamPositionKeptByEveryStep :
    (issued [.cmd 0x01] (zeroKeyed [0x11])).OnItsStream ∧ (zeroKeyed [0x11]).sce.valid = true ∧
      step (issued [.cmd 0x01] (zeroKeyed [0x11])) = .next (zeroKeyed []) :=
  ⟨fun _ => ⟨0, by unfold Cipher.AtPosition; exact ⟨rfl, rfl, rfl⟩⟩, rfl, rfl⟩

theorem witness_ParametersNeverChange :
    step (issued [.reset] { faulted with cfg := onePacket }) = .next { State.reset with cfg := onePacket } := rfl

/-- SC.INIT loads a key where there was none, and SC.ERASE takes it away. -/
theorem witness_KeyLoadedOnlyByScInit :
    step (issued [.cmd 0x20] (given (zeros 44))) = .next (zeroKeyed []) ∧
      (issued [.cmd 0x20] (given (zeros 44))).sce.valid = false ∧ (zeroKeyed []).sce.valid = true ∧
      step (issued [.cmd 0x23] (zeroKeyed [])) = .next State.reset ∧
      State.reset.sce.valid ≠ (issued [.cmd 0x23] (zeroKeyed [])).sce.valid := ⟨rfl, rfl, rfl, rfl, by decide⟩

theorem witness_CarryWrittenOnlyBySplitFlushReset :
    step (issued [.cmd 0x13] (given [0x41])) = .next { State.reset with carry := [0x41] } ∧
      ({ State.reset with carry := [0x41] } : State).carry ≠ (given [0x41]).carry ∧
      step (issued [.cmd 0x14] { State.reset with carry := [0x41] }) = .next State.reset ∧
      (issued [.cmd 0x14] { State.reset with carry := [0x41] }).fault = false ∧
      step (issued [.reset] { faulted with carry := [0x41] }) = .next State.reset := by
  refine ⟨rfl, ?_, rfl, rfl, rfl⟩
  decide

/-- A command appends, H_POP takes the head, a reset empties. -/
theorem witness_QueueIsFirstInFirstOut :
    step (issued [.cmd 0x10] { given [] with oq := [[0x05]] }) = .next { State.reset with oq := [[0x05], [0x01]] } ∧
      step (issued [.pop] { State.reset with oq := [[0x05], [0x01]] }) =
        .next { State.reset with oq := [[0x01]], returned := [.packet [0x05]] } ∧
      step (issued [.reset] { State.reset with oq := [[0x05]] }) = .next State.reset := ⟨rfl, rfl, rfl⟩

/-- Two engines with different keys, and FC.ENC. -/
theorem witness_KeyInfluencesOnlyTheCipherCommands :
    let a := issued [.cmd 0x10] (zeroKeyed [])
    let b := { a with sce := { a.sce with key := Vector.replicate 32 0xff } }
    SameButKey a b ∧ (∀ ts, a.pending ≠ .cmd 0x21 :: ts ∧ a.pending ≠ .cmd 0x22 :: ts) ∧
      step a = .next { zeroKeyed [] with oq := [[0x01]] } ∧
      step b = .next { zeroKeyed [] with
        oq := [[0x01]], sce := { (zeroKeyed []).sce with key := Vector.replicate 32 0xff } } := by
  refine ⟨rfl, fun ts => ⟨fun h => ?_, fun h => ?_⟩, rfl, rfl⟩ <;>
    · injection h with h
      injection h with h
      exact absurd h (by decide)

/-- Runs of 253 and of 254 literals, where R81 turns. -/
theorem witness_EncodeClosesRunsAsStated :
    ((0 : Byte) ∉ List.replicate 253 (0x41 : Byte) ∧ (List.replicate 253 (0x41 : Byte)).length ≤ 253) ∧
      ((0 : Byte) ∉ List.replicate 254 (0x41 : Byte) ∧ (List.replicate 254 (0x41 : Byte)).length = 254) := by
  refine ⟨⟨fun h => ?_, ?_⟩, fun h => ?_, List.length_replicate⟩
  · exact absurd (List.eq_of_mem_replicate h) (by decide)
  · rw [List.length_replicate]
  · exact absurd (List.eq_of_mem_replicate h) (by decide)

/-- A maximal last run, which the encoder never writes, and a literal zero. -/
theorem witness_DecodeReadsEveryWellFormedForm : RunsOk [[0x00, 0x41], List.replicate 254 0x41] := by
  unfold RunsOk
  decide +kernel

theorem witness_DecodeNeverLengthens : fcDecode [0x01, 0x02, 0x41, 0x01] = some [0x00, 0x41, 0x00] := by decide

theorem witness_SegmentsIndependentOfChunking :
    State.reset.fault = false ∧ State.reset.ibuf = [] ∧ State.reset.CarryZeroFree ∧
      AllUnbounded State.reset.cfg ∧
      ([[0x03, 0x05], [0xe6, 0x00, 0x02]] : List Bytes).flatten = ([[0x03], [], [0x05, 0xe6, 0x00, 0x02]] : List Bytes).flatten :=
  ⟨rfl, rfl, by unfold State.CarryZeroFree; decide, ⟨rfl, rfl, rfl, rfl⟩, rfl⟩

theorem witness_FramesSurviveAnyChunking :
    State.reset.fault = false ∧ State.reset.ibuf = [] ∧ State.reset.carry = [] ∧ AllUnbounded State.reset.cfg ∧
      ([[0x03, 0x05], [0xe6, 0x00, 0x01, 0x00]] : List Bytes).flatten =
        ([[0x05, 0xe6], []] : List Bytes).flatMap (fun P => fcEncode P ++ [0]) :=
  ⟨rfl, rfl, rfl, ⟨rfl, rfl, rfl, rfl⟩, by decide⟩

/-- OFF = 64 and the last offset below it. -/
theorem witness_XorStreamGoesByteByByte :
    erasedCipher.off.val = 64 ∧ ({ erasedCipher with off := 63 } : Cipher).off.val < 64 := by decide

/-- An engine at position 64, where block 0 is used up and block 1 not yet computed (V25). -/
theorem witness_StreamBytesMeetTheKeystream (bf : BlockFn) :
    ({ erasedCipher with
        valid := true, ctr := 1, off := 64
        block := blockFnApply bf (Vector.replicate 32 0) (Vector.replicate 12 0) 0 } : Cipher).AtPosition bf 64 ∧
      0 < ([0x00] : Bytes).length := by
  unfold Cipher.AtPosition
  exact ⟨⟨rfl, rfl, rfl⟩, by decide⟩

theorem witness_CipherSplitIndependent :
    (zeroKeyed []).fault = false ∧ (zeroKeyed []).sce.valid = true ∧ AllUnbounded (zeroKeyed []).cfg :=
  ⟨rfl, rfl, rfl, rfl, rfl, rfl⟩

theorem witness_DecryptInvertsEncryptAcrossEngines :
    let a := zeroKeyed [0x48, 0x69]
    let b := { zeroKeyed [] with carry := [0x41] }
    a.fault = false ∧ b.fault = false ∧ a.sce.valid = true ∧ b.sce = a.sce ∧
      b.cfg.blockFn = a.cfg.blockFn ∧ AllUnbounded a.cfg ∧ AllUnbounded b.cfg :=
  ⟨rfl, rfl, rfl, rfl, rfl, ⟨rfl, rfl, rfl, rfl⟩, rfl, rfl, rfl, rfl⟩

/-- V29's two operands. -/
theorem witness_OutputsDifferAsInputsDiffer :
    ([0x41, 0x42, 0x43] : Bytes).length = ([0x41, 0x40, 0x43] : Bytes).length := by decide

theorem witness_CounterWrapsAndKeystreamRepeats :
    ({ erasedCipher with ctr := 0xFFFFFFFF } : Cipher).ctr = 0xFFFFFFFF ∧
      ({ erasedCipher with ctr := 0xFFFFFFFF } : Cipher).off.val = 64 := by decide

/-- R112's rotations, two of R113's columns, and two of its diagonals. -/
theorem witness_QuarterRoundsOfALineCommute :
    (∀ n ∈ [7, 8, 12, 16], 0 < n ∧ n < 32) ∧ ([0, 5, 10, 15] : List (Fin 16)).Nodup ∧
    ([0, 4, 8, 12, 1, 5, 9, 13] : List (Fin 16)).Nodup ∧ ([0, 5, 10, 15, 3, 4, 9, 14] : List (Fin 16)).Nodup := by
  decide

/-- V47: on the zero digest the cursor stays 42. -/
theorem witness_WalkFollowsTheCursor :
    (fun _ : Nat => 42) 1 = 42 ∧
      ∀ i : Nat, 1 ≤ i → (fun _ : Nat => 42) (i + 1) =
        (fun _ : Nat => 42) i +
          (digestAt (Vector.replicate 64 0)
            ((fun _ : Nat => 42) i + (digestAt (Vector.replicate 64 0) ((fun _ : Nat => 42) i)).toNat + i)).toNat := by
  simp [digestAt]

/-- V46: on the digest of all `ff` the cursor grows by 255 each time, the most R142 allows. -/
theorem witness_CursorMayBeKeptModulo64 :
    (fun i : Nat => 42 + 255 * (i - 1)) 1 = 42 ∧
      ∀ i : Nat, 1 ≤ i → (fun i : Nat => 42 + 255 * (i - 1)) (i + 1) =
        (fun i : Nat => 42 + 255 * (i - 1)) i +
          (digestAt (Vector.replicate 64 0xff)
            ((fun i : Nat => 42 + 255 * (i - 1)) i +
              (digestAt (Vector.replicate 64 0xff) ((fun i : Nat => 42 + 255 * (i - 1)) i)).toNat + i)).toNat := by
  refine ⟨rfl, fun i hi => ?_⟩
  simp [digestAt]
  omega

theorem witness_PartitionUsesEveryByteOnce : (zeros 44).length = 44 := by decide

theorem witness_DerivedBytesComeFromTheDigest : Config.reference.wf = true := by decide

/-- 111 bytes are the longest message of one block, 112 the shortest of two. -/
theorem witness_PaddedMessageHasTheStatedShape :
    8 * (zeros 111).length < 2 ^ 128 ∧ 8 * (zeros 112).length < 2 ^ 128 := by
  simp [length_zeros]

end Sys2Proof.Tests
end

section
/-!
PROOFS. 10_state.md: the reset table (R29).
-/

namespace Sys2Proof.Machine

/-- Power-on puts CORE where H_RESET puts it (R29). -/
theorem reset_eq_resetCore : State.reset = resetCore State.reset := rfl

/-- A step whose transaction is H_RESET: R29's values, whatever the state was (R190). -/
theorem step_reset {r : State} {ts : List Transaction} (h : r.pending = .reset :: ts) :
    step r = .next (resetCore { r with pending := ts }) :=
  step_issued h

/-- After H_RESET every field of STATUS is 0 (R29, R74). -/
@[simp] theorem statusWord_resetCore (s : State) : statusWord (resetCore s) = 0 := rfl

/-- The three strings of the erased engine read zero at every index (R29, R107). -/
theorem erasedCipher_zero :
    (∀ t : Fin 32, erasedCipher.key[t] = 0) ∧ (∀ t : Fin 12, erasedCipher.nonce[t] = 0) ∧
      (∀ t : Fin 64, erasedCipher.block[t] = 0) := by
  simp [erasedCipher]

/-- Settles O11: power-on and a step of H_RESET both end in `resetCore` of some state, and there every element
has its value in the table. -/
theorem resetPutsEveryElementBack : Obligations.ResetPutsEveryElementBack := by
  unfold Obligations.ResetPutsEveryElementBack
  intro s hs
  obtain ⟨r, rfl⟩ : ∃ r, s = resetCore r := by
    obtain rfl | ⟨r, ts, hp, hstep⟩ := hs
    · exact ⟨_, reset_eq_resetCore⟩
    · rw [step_reset hp] at hstep
      injection hstep with hstep
      exact ⟨_, hstep.symm⟩
  obtain ⟨hkey, hnonce, hblock⟩ := erasedCipher_zero
  exact ⟨rfl, rfl, rfl, hkey, hnonce, rfl, hblock, rfl, rfl, rfl, rfl, statusWord_resetCore r⟩

end Sys2Proof.Machine
end

section
/-!
PROOFS. 30_encoding.md: the illegal command bytes (R56). The encoder, the decoder and the ranges of R56 are each
compared with one set, the numbers of the eleven opcodes.
-/

namespace Sys2Proof.Machine

/-- Column "opcode" of R53, as numbers. -/
def opcodes : Finset Nat := (opcodeMap.map fun row => row.1.toNat).toFinset

theorem mem_opcodes {n : Nat} : n ∈ opcodes ↔ ∃ row ∈ opcodeMap, row.1.toNat = n := by
  simp only [opcodes, List.mem_toFinset, List.mem_map]

/-- The encoder writes the opcode of every row of the opcode map (R53). -/
theorem encode_of_mem_opcodeMap {row : Byte × Instr} (h : row ∈ opcodeMap) : encode row.2 = row.1 := by
  revert row
  decide

theorem toNat_mem_opcodes_iff (w : Byte) : w.toNat ∈ opcodes ↔ ∃ i, encode i = w := by
  constructor
  · intro h
    obtain ⟨row, hrow, hw⟩ := mem_opcodes.mp h
    exact ⟨row.2, (encode_of_mem_opcodeMap hrow).trans (BitVec.eq_of_toNat_eq hw)⟩
  · rintro ⟨i, rfl⟩
    cases i <;> decide

/-- The ranges of R56 leave out the opcodes and nothing else. -/
theorem illegalByte_iff (w : Byte) : IllegalByte w ↔ w.toNat ∉ opcodes := by
  have hw : w.toNat < 256 := w.isLt
  simp only [IllegalByte, mem_opcodes, opcodeMap, BitVec.ofNat_eq_ofNat, List.mem_cons, List.not_mem_nil, or_false,
    exists_eq_or_imp, BitVec.toNat_ofNat, Nat.reducePow, Nat.reduceMod, ↓existsAndEq, true_and, not_or]
  omega

theorem illegalByte_iff_forall_encode_ne (w : Byte) : IllegalByte w ↔ ∀ i, encode i ≠ w := by
  rw [illegalByte_iff, toNat_mem_opcodes_iff, not_exists]

theorem toOption_decode (w : Byte) :
    (decode w).toOption = (opcodeMap.find? fun row => row.1 == w).map Prod.snd := by
  unfold decode
  cases opcodeMap.find? fun row => row.1 == w <;> rfl

theorem toOption_decode_eq_none_iff (w : Byte) : (decode w).toOption = none ↔ w.toNat ∉ opcodes := by
  simp only [toOption_decode, Option.map_eq_none_iff, List.find?_eq_none, beq_iff_eq, mem_opcodes,
    BitVec.toNat_inj, not_exists, not_and]

theorem decode_error_of_illegalByte {w : Byte} (h : IllegalByte w) : ∃ e, decode w = .error e := by
  have hnone := (toOption_decode_eq_none_iff w).mpr ((illegalByte_iff w).mp h)
  cases hd : decode w with
  | ok i => simp [hd, Except.toOption] at hnone
  | error e => exact ⟨e, rfl⟩

/-- The bytes that do not decode are the 256 bytes without the opcodes. -/
theorem toFinset_filter_decode_isNone :
    ((List.range 256).filter fun n => (decode (BitVec.ofNat 8 n)).toOption.isNone).toFinset =
      Finset.range 256 \ opcodes := by
  ext n
  simp only [List.mem_toFinset, List.mem_filter, List.mem_range, Finset.mem_sdiff, Finset.mem_range,
    Option.isNone_iff_eq_none, toOption_decode_eq_none_iff]
  refine and_congr_right fun hn => ?_
  rw [BitVec.toNat_ofNat, Nat.mod_eq_of_lt hn]

/-- There are 256 - 11 bytes that do not decode. -/
theorem length_filter_decode_isNone :
    ((List.range 256).filter fun n => (decode (BitVec.ofNat 8 n)).toOption.isNone).length = 245 := by
  have hsub : opcodes ⊆ Finset.range 256 := by decide
  have hcard : opcodes.card = 11 := by decide
  rw [← List.toFinset_card_of_nodup (List.nodup_range.filter _), toFinset_filter_decode_isNone,
    Finset.card_sdiff_of_subset hsub, Finset.card_range, hcard]

/-- A step whose transaction is H_CMD with a byte that does not decode, outside the fault state (R54 step 2). -/
theorem step_cmd_of_decode_error {s : State} {w : Byte} {ts : List Transaction} {e : DecodeError}
    (hp : s.pending = .cmd w :: ts) (hf : s.fault = false) (hd : decode w = .error e) :
    step s = .next { s with pending := ts, code := .illegal } := by
  rw [step_issued hp, performState, commandState_illegal hf hd]

/-- Settles O5: the ranges of R56 are the complement of the opcodes, so a byte in them is no command's, does not
decode, and makes the step write CODE. -/
theorem illegalBytesOnlyWriteCode : Obligations.IllegalBytesOnlyWriteCode := by
  unfold Obligations.IllegalBytesOnlyWriteCode
  refine ⟨illegalByte_iff_forall_encode_ne, length_filter_decode_isNone, fun s w ts hp hf hw => ?_⟩
  obtain ⟨e, hd⟩ := decode_error_of_illegalByte hw
  exact step_cmd_of_decode_error hp hf hd

end Sys2Proof.Machine
end

section
/-!
PROOFS. 40_buffer_control.md: H_PUSH (R71), H_POP (R72), BUF.CLR (R73) and H_STATUS (R74).
-/

namespace Sys2Proof.Machine

/-! ## H_PUSH -/

/-- A buffer of `n` bytes has room for one more exactly when no bound is reached. -/
theorem admits_succ_iff {c : Capacity} {n : Nat} :
    admits c (n + 1) = true ↔ ∀ m, c = .atMost m → n < m := by
  cases c with
  | unbounded => simp
  | atMost k => simp

theorem admits_succ_eq_false_iff {c : Capacity} {n : Nat} :
    admits c (n + 1) = false ↔ ∃ m, c = .atMost m ∧ m ≤ n := by
  simp only [← Bool.not_eq_true, admits_succ_iff, not_forall, exists_prop, not_lt]

/-- Settles O7: room in IBUF is `admits` of one byte more, on which H_PUSH branches. -/
theorem pushAppendsOrIsRefused : Obligations.PushAppendsOrIsRefused := by
  unfold Obligations.PushAppendsOrIsRefused
  intro s b ts hp
  rw [step_issued hp, performState]
  refine ⟨fun hf hroom => ?_, fun hrefused => ?_⟩
  · rw [hostPush_ok b hf (admits_succ_iff.mpr hroom)]
  · rw [hostPush_refused b (hrefused.imp_right admits_succ_eq_false_iff.mpr)]

/-! ## H_POP -/

/-- Settles O8: H_POP branches on the queue, and either branch writes what R72 says and nothing else. -/
theorem popTakesTheHeadPacket : Obligations.PopTakesTheHeadPacket := by
  unfold Obligations.PopTakesTheHeadPacket
  intro s ts hp
  rw [step_issued hp, performState]
  refine ⟨fun p ps hhead => ?_, fun hempty => ?_⟩
  · rw [hostPop_head hhead]
  · rw [hostPop_empty hempty]

/-! ## H_STATUS -/

/-- CODE fits in its three bits and is never 6 or 7 (R22, R160). -/
theorem codeNumber_le (c : Code) : codeNumber c ≤ 5 := by
  cases c <;> decide

theorem toNat_oqNotEmpty (s : State) : (oqNotEmpty s).toNat = if s.oq = [] then 0 else 1 := by
  unfold oqNotEmpty
  cases s.oq <;> rfl

/-- The STATUS word as a number: the sum of R74 is at most 61, so its 32 bits lose nothing. -/
theorem toNat_statusWord (s : State) :
    (statusWord s).toNat =
      codeNumber s.code + 8 * s.fault.toNat + 16 * s.sce.valid.toNat + 32 * (oqNotEmpty s).toNat := by
  have hcode := codeNumber_le s.code
  have hfault := s.fault.toNat_le
  have hvalid := s.sce.valid.toNat_le
  have hoq := (oqNotEmpty s).toNat_le
  rw [statusWord, BitVec.toNat_ofNat]
  exact Nat.mod_eq_of_lt (by omega)

/-- Settles O9: the word given back is `statusWord`, whose value loses nothing in 32 bits. -/
theorem statusReturnsItsValue : Obligations.StatusReturnsItsValue := by
  unfold Obligations.StatusReturnsItsValue
  intro s ts hp
  refine ⟨statusWord s, step_issued hp, ?_⟩
  rw [toNat_statusWord, toNat_oqNotEmpty]

/-! ## BUF.CLR -/

/-- Settles O13: outside the fault state BUF.CLR is the plain end of a command, which clears IBUF and reports OK. -/
theorem bufClrDiscardsTheOperand : Obligations.BufClrDiscardsTheOperand := by
  unfold Obligations.BufClrDiscardsTheOperand
  intro s hf
  exact exec_running .bufClr hf

end Sys2Proof.Machine
end

section
/-!
PROOFS. 41_frame_codec.md, the encoder's side: where `encode` closes a run (R81), and FC.ENC (R83) and FC.FRAME (R84).
-/

namespace Sys2Proof.Machine

/-! ## Where a run is closed -/

/-- Non-zero bytes that leave the open run below 254 literals only grow it (R81). -/
theorem encodeRuns_append {p lits : Bytes} (hp : (0 : Byte) ∉ p) (hlen : lits.length + p.length ≤ 253) (P : Bytes) :
    encodeRuns (p ++ P) lits = encodeRuns P (lits ++ p) := by
  induction p generalizing lits with
  | nil => simp
  | cons b p ih =>
    obtain ⟨hb, hp⟩ := not_or.mp (List.mem_cons.not.mp hp)
    rw [List.length_cons] at hlen
    have hgrown : (lits ++ [b]).length + p.length ≤ 253 := by
      rw [List.length_append, List.length_singleton]
      omega
    rw [List.cons_append, encodeRuns, if_neg (Ne.symm hb), if_neg (by omega), ih hp hgrown, List.append_assoc,
      List.singleton_append]

/-- A zero closes the open run (R81). -/
theorem encodeRuns_zero (P lits : Bytes) : encodeRuns (0 :: P) lits = lits :: encodeRuns P [] :=
  if_pos rfl

/-- The 254th literal closes the open run (R81). -/
theorem encodeRuns_full {b : Byte} (hb : b ≠ 0) {lits : Bytes} (hlen : lits.length = 253) (P : Bytes) :
    encodeRuns (b :: P) lits = (lits ++ [b]) :: encodeRuns P [] := by
  rw [encodeRuns, if_neg hb, if_pos (by rw [hlen])]

/-- Fewer than 254 non-zero bytes and a zero are one run. -/
theorem fcEncode_zero {p : Bytes} (hp : (0 : Byte) ∉ p) (hlen : p.length ≤ 253) (P : Bytes) :
    fcEncode (p ++ 0 :: P) = runBytes p ++ fcEncode P := by
  rw [fcEncode_eq_runs, fcEncode_eq_runs, encodeRuns_append hp (by simpa using hlen), encodeRuns_zero,
    stuffedBytes_cons, List.nil_append]

/-- Fewer than 254 non-zero bytes at the end of the payload are its last run. -/
theorem fcEncode_last {p : Bytes} (hp : (0 : Byte) ∉ p) (hlen : p.length ≤ 253) : fcEncode p = runBytes p := by
  have hruns := encodeRuns_append (lits := []) hp (by simpa using hlen) []
  rw [List.append_nil, List.nil_append] at hruns
  rw [fcEncode_eq_runs, hruns, encodeRuns, stuffedBytes_cons, stuffedBytes_nil, List.append_nil]

/-- 254 non-zero bytes are one run, and the encoder starts afresh behind it, also at the end of the payload. -/
theorem fcEncode_full {p : Bytes} (hp : (0 : Byte) ∉ p) (hlen : p.length = 254) (P : Bytes) :
    fcEncode (p ++ P) = runBytes p ++ fcEncode P := by
  obtain ⟨q, b, rfl⟩ := (List.eq_nil_or_concat' p).resolve_left (by rintro rfl; simp at hlen)
  have hq : q.length = 253 := by simpa using hlen
  simp only [List.mem_append, List.mem_singleton, not_or] at hp
  obtain ⟨hq0, hb⟩ := hp
  rw [fcEncode_eq_runs, fcEncode_eq_runs, List.append_assoc, encodeRuns_append hq0 (by simp [hq]), List.nil_append,
    List.singleton_append, encodeRuns_full (Ne.symm hb) hq, stuffedBytes_cons]

/-- Settles O38: the three ways a run is closed, with the code byte of `runBytes` written out. -/
theorem encodeClosesRunsAsStated : Obligations.EncodeClosesRunsAsStated := by
  unfold Obligations.EncodeClosesRunsAsStated
  intro p P hp
  refine ⟨fun hlen => fcEncode_zero hp hlen P, fun hlen => fcEncode_last hp hlen, fun hlen => ?_⟩
  rw [fcEncode_full hp hlen, runBytes, hlen]
  rfl

/-! ## No zero byte -/

/-- The encoder's runs have at most 254 literals, none of them zero (R81, R58). -/
theorem encodeRuns_wf (P : Bytes) {lits : Bytes} (hlits : (0 : Byte) ∉ lits) (hlen : lits.length ≤ 253) :
    ∀ r ∈ encodeRuns P lits, r.length ≤ 254 ∧ (0 : Byte) ∉ r := by
  induction P generalizing lits with
  | nil => simpa [encodeRuns] using ⟨by omega, hlits⟩
  | cons b P ih =>
    have hfresh := ih (lits := []) List.not_mem_nil (Nat.zero_le _)
    by_cases hb : b = 0
    · rw [hb, encodeRuns_zero]
      exact List.forall_mem_cons.mpr ⟨⟨by omega, hlits⟩, hfresh⟩
    · have hgrown : (0 : Byte) ∉ lits ++ [b] := by
        rw [List.mem_append, List.mem_singleton, not_or]
        exact ⟨hlits, Ne.symm hb⟩
      have hlength : (lits ++ [b]).length = lits.length + 1 := List.length_append
      by_cases hfull : lits.length = 253
      · rw [encodeRuns_full hb hfull]
        exact List.forall_mem_cons.mpr ⟨⟨by omega, hgrown⟩, hfresh⟩
      · rw [encodeRuns, if_neg hb, if_neg (by omega)]
        exact ih hgrown (by omega)

/-- The code byte of a run is a number 1..255 (R58). -/
theorem toNat_runCode {r : Bytes} (h : r.length ≤ 254) : (BitVec.ofNat 8 (r.length + 1)).toNat = r.length + 1 :=
  (BitVec.toNat_ofNat _ _).trans (Nat.mod_eq_of_lt (by omega))

theorem runCode_ne_zero {r : Bytes} (h : r.length ≤ 254) : BitVec.ofNat 8 (r.length + 1) ≠ 0 := by
  intro h0
  have hcode := toNat_runCode h
  rw [h0] at hcode
  exact absurd hcode (by simp)

theorem zero_notMem_runBytes {r : Bytes} (hlen : r.length ≤ 254) (hr : (0 : Byte) ∉ r) : (0 : Byte) ∉ runBytes r := by
  rw [runBytes, List.mem_cons, not_or]
  exact ⟨(runCode_ne_zero hlen).symm, hr⟩

/-- No byte of a stuffed form is zero (R82 (a)). -/
theorem zero_notMem_fcEncode (P : Bytes) : (0 : Byte) ∉ fcEncode P := by
  rw [fcEncode_eq_runs, stuffedBytes, List.mem_flatMap]
  rintro ⟨r, hr, hzero⟩
  obtain ⟨hlen, hr0⟩ := encodeRuns_wf P List.not_mem_nil (Nat.zero_le _) r hr
  exact zero_notMem_runBytes hlen hr0 hzero

/-! ## FC.ENC and FC.FRAME -/

/-- A running command that ends by delivering packets: pushed whole, or nothing but ERR_OVERFLOW (R83, R166). -/
theorem exec_of_commandRule_eq_deliver {i : Instr} {s : State} {ps : List Bytes} (hf : s.fault = false)
    (hrule : commandRule i s = deliver ps s) :
    (fits s ps = true → exec i s = .next { s with oq := s.oq ++ ps, ibuf := [], code := .ok }) ∧
      (fits s ps = false → exec i s = .next { s with code := .overflow }) := by
  rw [exec_running i hf, hrule]
  exact ⟨fun hfits => congrArg _ (deliver_fits hfits), fun hfull => congrArg _ (deliver_overflow hfull)⟩

/-- Settles O14: FC.ENC delivers one packet, and both outcomes are those of `deliver`. -/
theorem fcEncPushesTheStuffedForm : Obligations.FcEncPushesTheStuffedForm := by
  unfold Obligations.FcEncPushesTheStuffedForm
  intro s hf
  exact exec_of_commandRule_eq_deliver hf rfl

/-- Settles O15: FC.FRAME delivers one packet; its stuffed form has no zero byte, so the delimiter is the only one. -/
theorem fcFramePushesTheFrame : Obligations.FcFramePushesTheFrame := by
  unfold Obligations.FcFramePushesTheFrame
  refine ⟨fun s hf => exec_of_commandRule_eq_deliver hf rfl, fun P => ?_⟩
  rw [List.count_append, List.count_eq_zero.mpr (zero_notMem_fcEncode P), List.count_singleton_self]

end Sys2Proof.Machine
end

section
/-!
PROOFS. 41_frame_codec.md, the decoder's side: the two malformed cases (R86) and FC.DEC (R87).
-/

namespace Sys2Proof.Machine

/-! ## The two malformed cases -/

/-- Decoding fails at the first code byte, or behind its literals (R85). -/
theorem fcDecode_cons_eq_none_iff (code : Byte) (rest : Bytes) :
    fcDecode (code :: rest) = none ↔
      (code = 0 ∨ rest.length < code.toNat - 1) ∨ fcDecode (rest.drop (code.toNat - 1)) = none := by
  rw [fcDecode_cons]
  by_cases hzero : code = 0
  · simp only [hzero, if_true, true_or]
  · by_cases hshort : rest.length < code.toNat - 1
    · simp only [hshort, if_true, ite_self, or_true, true_or]
    · simp only [hzero, hshort, if_false, Option.map_eq_none_iff, or_self, false_or]

/-- A whole run neither makes the input malformed nor mends it. -/
theorem fcDecode_runBytes_append_eq_none_iff {r : Bytes} (h : r.length ≤ 254) (S : Bytes) :
    fcDecode (runBytes r ++ S) = none ↔ fcDecode S = none := by
  rw [runBytes, List.cons_append, fcDecode_cons_eq_none_iff, toNat_runCode h, Nat.add_sub_cancel, List.drop_left]
  have hwhole : ¬(r ++ S).length < r.length := by simp
  exact or_iff_right (not_or.mpr ⟨runCode_ne_zero h, hwhole⟩)

/-- A code byte that is not zero and has its literals heads a whole run (R58). -/
theorem exists_runBytes_append {code : Byte} {rest : Bytes} (hzero : code ≠ 0) (hlen : code.toNat - 1 ≤ rest.length) :
    ∃ r : Bytes, r.length ≤ 254 ∧ code :: rest = runBytes r ++ rest.drop (code.toNat - 1) := by
  have hlit : (rest.take (code.toNat - 1)).length = code.toNat - 1 := List.length_take_of_le hlen
  have hlt : code.toNat < 256 := code.isLt
  have hpos : code.toNat ≠ 0 := fun h => hzero (BitVec.eq_of_toNat_eq h)
  refine ⟨rest.take (code.toNat - 1), by omega, ?_⟩
  rw [runBytes, hlit, Nat.sub_add_cancel (by omega), BitVec.ofNat_toNat, BitVec.setWidth_eq, List.cons_append,
    List.take_append_drop]

/-- Whole runs, then one of the two cases: malformed (R86). -/
theorem fcDecode_stuffedBytes_append_eq_none {runs : List Bytes} (hruns : RunsOk runs) {S : Bytes}
    (h : fcDecode S = none) : fcDecode (stuffedBytes runs ++ S) = none := by
  induction runs with
  | nil => exact h
  | cons r runs ih =>
    obtain ⟨hr, hruns⟩ := List.forall_mem_cons.mp hruns
    rw [stuffedBytes_cons, List.append_assoc, fcDecode_runBytes_append_eq_none_iff hr]
    exact ih hruns

/-- Malformed input has whole runs up to one of the two cases (R86). -/
theorem exists_malformed_of_fcDecode_eq_none : ∀ S : Bytes, fcDecode S = none →
    ∃ (runs : List Bytes) (code : Byte) (left : Bytes), RunsOk runs ∧
      S = stuffedBytes runs ++ code :: left ∧ (code = 0 ∨ left.length < code.toNat - 1)
  | [], h => nomatch h
  | code :: rest, h => by
    by_cases hbad : code = 0 ∨ rest.length < code.toNat - 1
    · exact ⟨[], code, rest, List.forall_mem_nil _, rfl, hbad⟩
    · have hleft := ((fcDecode_cons_eq_none_iff code rest).mp h).resolve_left hbad
      obtain ⟨hzero, hlen⟩ := not_or.mp hbad
      obtain ⟨r, hr, hsplit⟩ := exists_runBytes_append hzero (not_lt.mp hlen)
      obtain ⟨runs, code', left, hruns, heq, hcase⟩ := exists_malformed_of_fcDecode_eq_none _ hleft
      refine ⟨r :: runs, code', left, List.forall_mem_cons.mpr ⟨hr, hruns⟩, ?_, hcase⟩
      rw [hsplit, heq, stuffedBytes_cons, List.append_assoc]
termination_by S => S.length
decreasing_by
  rw [List.length_drop, List.length_cons]
  omega

/-- Settles O44: the decoder fails exactly where the input, behind whole runs, shows one of the two cases. -/
theorem decodeRejectsExactlyTwoCases : Obligations.DecodeRejectsExactlyTwoCases := by
  unfold Obligations.DecodeRejectsExactlyTwoCases
  refine fun S => ⟨exists_malformed_of_fcDecode_eq_none S, ?_⟩
  rintro ⟨runs, code, left, hruns, rfl, hcase⟩
  exact fcDecode_stuffedBytes_append_eq_none hruns ((fcDecode_cons_eq_none_iff code left).mpr (.inl hcase))

/-! ## FC.DEC -/

theorem commandRule_fcDec_some {s : State} {r : Bytes} (h : fcDecode s.ibuf = some r) :
    commandRule .fcDec s = deliver [r] s := by
  simp only [commandRule, operand, h]

theorem commandRule_fcDec_none {s : State} (h : fcDecode s.ibuf = none) :
    commandRule .fcDec s = { s with ibuf := [], code := .malformed } := by
  simp only [commandRule, operand, h]
  rfl

/-- Settles O16: FC.DEC drops a malformed operand, and otherwise its outcomes are those of `deliver`. -/
theorem fcDecDeliversOrRejects : Obligations.FcDecDeliversOrRejects := by
  unfold Obligations.FcDecDeliversOrRejects
  intro s hf
  have hdeliver := fun r (hr : fcDecode s.ibuf = some r) =>
    exec_of_commandRule_eq_deliver hf (commandRule_fcDec_some hr)
  refine ⟨fun r hr => (hdeliver r hr).1, fun hnone => ?_, fun r hr => (hdeliver r hr).2⟩
  rw [exec_running .fcDec hf, commandRule_fcDec_none hnone]

end Sys2Proof.Machine
end

section
/-!
PROOFS. 41_frame_codec.md, the stream's side: FC.SPLIT (R90) and FC.FLUSH (R92).
-/

namespace Sys2Proof.Machine

/-! ## FC.SPLIT -/

/-- The split finds the pieces and the rest of every writing of R90. -/
theorem splitSegments_eq_of_splits {B : Bytes} {complete : List Bytes} {rest : Bytes} (h : Splits B complete rest) :
    splitSegments B = (complete, rest) := by
  obtain ⟨rfl, hpieces, hrest⟩ := h
  induction complete with
  | nil => exact splitSegments_zeroFree hrest
  | cons p ps ih =>
    obtain ⟨hp, hps⟩ := List.forall_mem_cons.mp hpieces
    have hfront : (p :: ps).flatMap (fun q => q ++ [0]) ++ rest = p ++ 0 :: (ps.flatMap (fun q => q ++ [0]) ++ rest) := by
      simp
    rw [hfront, splitSegments_piece hp, ih hps]

theorem admits_iff {c : Capacity} {n : Nat} : admits c n = true ↔ ∀ m, c = .atMost m → n ≤ m := by
  cases c with
  | unbounded => simp
  | atMost k => simp

theorem admits_eq_false_iff {c : Capacity} {n : Nat} : admits c n = false ↔ ∃ m, c = .atMost m ∧ m < n := by
  simp only [← Bool.not_eq_true, admits_iff, not_forall, exists_prop, not_le]

/-- Settles O17: the pieces and the rest are those FC.SPLIT finds, and it branches on their fitting. -/
theorem fcSplitDeliversTheSegments : Obligations.FcSplitDeliversTheSegments := by
  unfold Obligations.FcSplitDeliversTheSegments
  intro s complete rest hf hsplits
  have hseg := splitSegments_eq_of_splits hsplits
  rw [exec_running .fcSplit hf, commandRule]
  refine ⟨fun hcarry hfits => ?_, fun hoverflow => ?_⟩
  · rw [splitChunk_ok (by rw [hseg]; exact admits_iff.mpr hcarry) (by rw [hseg]; exact hfits), hseg]
  · rw [splitChunk_overflow (by rw [hseg]; exact hoverflow.imp_left admits_eq_false_iff.mpr)]

/-! ## FC.FLUSH -/

/-- Settles O19: outside the fault state FC.FLUSH clears CARRY and reports OK. -/
theorem fcFlushDropsTheCarry : Obligations.FcFlushDropsTheCarry := by
  unfold Obligations.FcFlushDropsTheCarry
  intro s hf
  exact exec_running .fcFlush hf

end Sys2Proof.Machine
end

section
/-!
PROOFS. 42_stream_cipher.md, the engine's stream: `xor_stream` byte by byte (R104) and the wrap of CTR (R109).
-/

namespace Sys2Proof.Machine

/-! ## xor_stream -/

/-- CTR is counted modulo 2^32 (R104, R109). -/
theorem ctr_add_one (x : W32) : BitVec.ofNat 32 ((x.toNat + 1) % 2 ^ 32) = x + 1 :=
  BitVec.eq_of_toNat_eq (by simp)

/-- A data byte at OFF = 64: it meets byte 0 of a fresh block, and the rest goes on behind it (R104). -/
theorem xorStream_cons_fresh (bf : BlockFn) {c : Cipher} (h : c.off = 64) (x : Byte) (X : Bytes) :
    xorStream bf c (x :: X) =
      let b := blockFnApply bf c.key c.nonce c.ctr
      let r := xorStream bf { c with block := b, ctr := c.ctr + 1, off := 1 } X
      ((x ^^^ b[0]) :: r.1, r.2) := by
  rw [xorStream_cons, nextKeystreamByte_fresh bf h]

/-- A data byte below OFF = 64: it meets `BLOCK[OFF]`, and the rest goes on behind it (R104). -/
theorem xorStream_cons_within (bf : BlockFn) {c : Cipher} (h : c.off.val < 64) (x : Byte) (X : Bytes) :
    xorStream bf c (x :: X) =
      let r := xorStream bf { c with off := ⟨c.off.val + 1, by omega⟩ } X
      ((x ^^^ c.block[c.off.val]) :: r.1, r.2) := by
  rw [xorStream_cons, nextKeystreamByte_within bf h]

/-- Settles O48: the two cases of the offset are the two cases of the per-byte step. -/
theorem xorStreamGoesByteByByte : Obligations.XorStreamGoesByteByByte := by
  unfold Obligations.XorStreamGoesByteByByte
  intro bf c x X
  refine ⟨xorStream_nil bf c, fun h => ?_, fun h => xorStream_cons_within bf h x X, length_xorStream bf c X⟩
  rw [ctr_add_one]
  exact xorStream_cons_fresh bf (Fin.ext h) x X

/-! ## The wrap of CTR -/

/-- Byte `64 * 2^32` further is the same byte of the block made from the same CTR (R103, R109). -/
theorem keystream_add_period (bf : BlockFn) (key : Key) (nonce : Nonce) (j : Nat) :
    keystream bf key nonce (j + 2 ^ 38) = keystream bf key nonce j := by
  have hdiv : (j + 2 ^ 38) / 64 = j / 64 + 2 ^ 32 := by omega
  have hmod : (j + 2 ^ 38) % 64 = j % 64 := by omega
  have hctr : BitVec.ofNat 32 (j / 64 + 2 ^ 32) = BitVec.ofNat 32 (j / 64) :=
    BitVec.eq_of_toNat_eq (by simp)
  simp only [keystream, hdiv, hmod, hctr]

/-- Settles O53: at CTR = 0xFFFFFFFF the fresh block's increment gives 0, and CTR's 2^32 blocks of 64 bytes are the
keystream's period. -/
theorem counterWrapsAndKeystreamRepeats : Obligations.CounterWrapsAndKeystreamRepeats := by
  unfold Obligations.CounterWrapsAndKeystreamRepeats
  refine ⟨fun bf c x hctr hoff => ?_, keystream_add_period⟩
  obtain ⟨-, -, hvalid⟩ := xorStream_keys bf c [x]
  refine ⟨?_, ?_, hvalid⟩
  · rw [xorStream_cons_fresh bf (Fin.ext hoff), hctr]
    rfl
  · rw [xorStream_cons_fresh bf (Fin.ext hoff)]
    rfl

end Sys2Proof.Machine
end

section
/-!
PROOFS. 42_stream_cipher.md, the commands: SC.INIT (R101, R102), SC.ENCRYPT (R105), SC.DECRYPT (R106) and
SC.ERASE (R107).
-/

namespace Sys2Proof.Machine

/-! ## SC.INIT -/

/-- Inside the string `byteAt` is the byte itself. -/
theorem byteAt_of_lt {bs : Bytes} {i : Nat} (h : i < bs.length) : byteAt bs i = bs[i] :=
  (List.getElem_eq_getD 0).symm

/-- The fields of a KN packet, byte by byte (R36, R101). -/
theorem loadedCipher_of_length {kn : Bytes} (h : kn.length = 44) :
    loadedCipher kn =
      { key := Vector.ofFn fun t : Fin 32 => kn[t.val]'(by omega)
        nonce := Vector.ofFn fun t : Fin 12 => kn[32 + t.val]'(by omega)
        ctr := 0
        block := Vector.replicate 64 0
        off := 64
        valid := true } := by
  have hkey : knKey kn = Vector.ofFn fun t : Fin 32 => kn[t.val]'(by omega) := by
    simp only [knKey, bytesFrom, Nat.zero_add]
    exact congrArg Vector.ofFn (funext fun t => byteAt_of_lt _)
  have hnonce : knNonce kn = Vector.ofFn fun t : Fin 12 => kn[32 + t.val]'(by omega) :=
    congrArg Vector.ofFn (funext fun t => byteAt_of_lt _)
  rw [loadedCipher, hkey, hnonce]

/-- Settles O20: SC.INIT looks at the operand's length alone, never at the engine it loads. -/
theorem scInitLoadsOrFaults : Obligations.ScInitLoadsOrFaults := by
  unfold Obligations.ScInitLoadsOrFaults
  intro s hf
  rw [exec_running .scInit hf, commandRule]
  refine ⟨fun h => ?_, fun h => ?_⟩
  · rw [initCipher_ok h, loadedCipher_of_length h]
  · rw [initCipher_fault h]
    rfl

/-! ## SC.ENCRYPT and SC.DECRYPT -/

/-- The three outcomes of the running command whose rule is the one cipher operation (R105, R106). -/
theorem exec_of_commandRule_eq_cryptOperand {i : Instr} {s : State} (hf : s.fault = false)
    (hrule : commandRule i s = cryptOperand s) :
    (s.sce.valid = true → fits s [zeros s.ibuf.length] = true →
      exec i s = .next
        { s with
          oq := s.oq ++ [(xorStream s.cfg.blockFn s.sce s.ibuf).1]
          sce := (xorStream s.cfg.blockFn s.sce s.ibuf).2
          ibuf := []
          code := .ok }) ∧
    (s.sce.valid = false → exec i s = .next { s with ibuf := [], code := .nokey }) ∧
    (s.sce.valid = true → fits s [zeros s.ibuf.length] = false →
      exec i s = .next { s with code := .overflow }) := by
  rw [exec_running i hf, hrule]
  exact ⟨fun hv hfits => congrArg _ (cryptOperand_ok hv hfits), fun hv => congrArg _ (cryptOperand_nokey hv),
    fun hv hfull => congrArg _ (cryptOperand_overflow hv hfull)⟩

/-- Settles O21: the outcomes are those of the cipher operation, whose stream keeps key and nonce. -/
theorem scEncryptXorsTheOperand : Obligations.ScEncryptXorsTheOperand := by
  unfold Obligations.ScEncryptXorsTheOperand
  intro s hf
  obtain ⟨hkey, hnonce, -⟩ := xorStream_keys s.cfg.blockFn s.sce s.ibuf
  exact ⟨⟨hkey, hnonce⟩, exec_of_commandRule_eq_cryptOperand hf rfl⟩

/-- SC.DECRYPT and SC.ENCRYPT have one rule behind the one gate (R106). -/
theorem exec_scDecrypt (s : State) : exec .scDecrypt s = exec .scEncrypt s := by
  rw [exec_eq_command, exec_eq_command, commandRule, commandRule]

/-- Settles O22: SC.DECRYPT has SC.ENCRYPT's rule, in the fault state and outside it. -/
theorem scDecryptIsTheSameOperation : Obligations.ScDecryptIsTheSameOperation := by
  unfold Obligations.ScDecryptIsTheSameOperation
  exact ⟨exec_scDecrypt, fun s hf => exec_of_commandRule_eq_cryptOperand hf rfl⟩

/-! ## SC.ERASE -/

/-- Settles O23: outside the fault state SC.ERASE puts the erased engine in place and reports OK. -/
theorem scEraseErasesTheEngine : Obligations.ScEraseErasesTheEngine := by
  unfold Obligations.ScEraseErasesTheEngine
  intro s hf
  exact exec_running .scErase hf

end Sys2Proof.Machine
end

section
/-!
PROOFS. 43_key_derivation.md: the walk's cursor (R133), the partition (R134) and KD.DERIVE (R130, R132).
-/

namespace Sys2Proof.Machine

/-! ## The walk -/

/-- Iterations `i`, `i+1`, ... of R133 along the cursor sequence `c`: the byte written `k` iterations later is the
one the cursor `c (i + k)` gives. -/
theorem getElem?_walkFrom_cursor {d : Digest} {c : Nat → Nat}
    (hc : ∀ i, 1 ≤ i → c (i + 1) = c i + (digestAt d (c i + (digestAt d (c i)).toNat + i)).toNat)
    {n i k : Nat} (hi : 1 ≤ i) (hk : k < n) :
    (walkFrom d n i (c i))[k]? = some (digestAt d (c (i + k) + (digestAt d (c (i + k))).toNat)) := by
  induction n generalizing i k with
  | zero => exact absurd hk k.not_lt_zero
  | succ n ih =>
    rw [walkFrom_succ, ← hc i hi]
    cases k with
    | zero => rfl
    | succ k =>
      rw [List.getElem?_cons_succ, ih (Nat.le_add_left 1 i) (Nat.lt_of_succ_lt_succ hk), Nat.succ_add_eq_add_succ]

/-- Settles O56: the walk starts at iteration 1 with the sequence's first cursor, so byte `i - 1` is iteration `i`'s. -/
theorem walkFollowsTheCursor : Obligations.WalkFollowsTheCursor := by
  unfold Obligations.WalkFollowsTheCursor
  intro d c hstart hc
  refine ⟨rfl, length_walk 42 d, fun i hi hle => ?_⟩
  have hbyte := getElem?_walkFrom_cursor hc (n := kdfSteps) (k := i - 1) le_rfl (by rw [kdfSteps]; omega)
  rwa [hstart, Nat.add_sub_cancel' hi] at hbyte

/-! ## The partition -/

/-- The positions of the reference index set, in visiting order (R134). -/
theorem filter_visitedPositions_nonce :
    visitedPositions.filter (fun p => Config.reference.kdfNoncePos.contains p) =
      [3, 7, 9, 12, 14, 17, 21, 24, 26, 28, 33, 42] := by decide

/-- The positions outside the reference index set, in visiting order (R134). -/
theorem filter_visitedPositions_key :
    visitedPositions.filter (fun p => !Config.reference.kdfNoncePos.contains p) =
      [0, 1, 2, 4, 5, 6, 8, 10, 11, 13, 15, 16, 18, 19, 20, 22, 23, 25, 27, 29, 30, 31, 32, 34, 35, 36, 37, 38,
        39, 40, 41, 43] := by decide

/-- The visited positions are all positions of `out`, each once. -/
theorem map_byteAt_visitedPositions {out : Bytes} (h : out.length = 44) :
    visitedPositions.map (byteAt out) = out := by
  refine List.ext_getElem (by simp [visitedPositions, kdfSteps, h]) fun i _ hi => ?_
  simp only [visitedPositions, List.getElem_map, List.getElem_range, byteAt_of_lt hi]

/-- Whatever the index set, key and nonce together are a rearrangement of `out` (R134). -/
theorem partition_append_perm (np : List Nat) {out : Bytes} (h : out.length = 44) :
    ((partition np out).1 ++ (partition np out).2).Perm out := by
  have hpos := List.filter_append_perm (fun p => np.contains p) visitedPositions
  have hmap := (List.perm_append_comm.trans hpos).map (byteAt out)
  rwa [List.map_append, map_byteAt_visitedPositions h] at hmap

/-- Settles O58: the two position lists by filtering the 44 positions; no byte is lost or doubled for any index set. -/
theorem partitionUsesEveryByteOnce : Obligations.PartitionUsesEveryByteOnce := by
  unfold Obligations.PartitionUsesEveryByteOnce
  intro out hout
  exact ⟨congrArg (List.map (byteAt out)) filter_visitedPositions_nonce,
    congrArg (List.map (byteAt out)) filter_visitedPositions_key, partition_append_perm _ hout⟩

/-! ## KD.DERIVE -/

/-- Settles O24: the packet has 44 bytes whatever the operand, so KD.DERIVE branches on room for 44. -/
theorem kdDerivePushesTheKnPacket : Obligations.KdDerivePushesTheKnPacket := by
  unfold Obligations.KdDerivePushesTheKnPacket
  refine ⟨fun _ _ => rfl, fun s hf => ?_⟩
  rw [exec_running .kdDerive hf, commandRule]
  refine ⟨length_derived_packet s.cfg s.ibuf, fun hfits => ?_, fun hfull => ?_⟩
  · rw [deriveOperand_ok hfits, knPacket]
  · rw [deriveOperand_overflow hfull]

end Sys2Proof.Machine
end

section
/-!
PROOFS. 60_exceptions.md: ERR_OVERFLOW and its retry (R166), fault entry (R167) and the fault state (R169).
-/

namespace Sys2Proof.Machine

/-! ## ERR_OVERFLOW -/

theorem code_deliver_eq_overflow_iff (ps : List Bytes) (s : State) :
    (deliver ps s).code = .overflow ↔ fits s ps = false := by
  cases h : fits s ps with
  | true => simp [deliver_fits h]
  | false => simp [deliver_overflow h]

theorem code_splitChunk_eq_overflow_iff (s : State) :
    (splitChunk s).code = .overflow ↔
      admits s.cfg.carryCap (splitSegments (s.carry ++ s.ibuf)).2.length = false ∨
        fits s (splitSegments (s.carry ++ s.ibuf)).1 = false := by
  by_cases h : admits s.cfg.carryCap (splitSegments (s.carry ++ s.ibuf)).2.length = false ∨
      fits s (splitSegments (s.carry ++ s.ibuf)).1 = false
  · simp [splitChunk_overflow h, h]
  · obtain ⟨hcarry, hfits⟩ := not_or.mp h
    rw [Bool.not_eq_false] at hcarry hfits
    simp [splitChunk_ok hcarry hfits, hcarry, hfits]

/-- The room tested for is that of the operand's length, and the output has that length (R104, R105). -/
theorem code_cryptOperand_eq_overflow_iff (s : State) :
    (cryptOperand s).code = .overflow ↔
      s.sce.valid = true ∧ fits s [(xorStream s.cfg.blockFn s.sce s.ibuf).1] = false := by
  have hroom : fits s [(xorStream s.cfg.blockFn s.sce s.ibuf).1] = fits s [zeros s.ibuf.length] :=
    fits_congr rfl rfl rfl (by simp)
  rw [hroom]
  cases hv : s.sce.valid with
  | false => simp [cryptOperand_nokey hv]
  | true =>
    cases hf : fits s [zeros s.ibuf.length] with
    | true => simp [cryptOperand_ok hv hf]
    | false => simp [cryptOperand_overflow hv hf]

/-- The room tested for is 44 bytes, and the packet has 44 bytes (R130). -/
theorem code_deriveOperand_eq_overflow_iff (s : State) :
    (deriveOperand s).code = .overflow ↔
      fits s [knPacket (derive s.cfg s.ibuf).1 (derive s.cfg s.ibuf).2] = false := by
  have hroom : fits s [knPacket (derive s.cfg s.ibuf).1 (derive s.cfg s.ibuf).2] = fits s [zeros 44] :=
    fits_congr rfl rfl rfl (by simp [length_derived_packet])
  rw [hroom]
  cases hf : fits s [zeros 44] with
  | true => simp [deriveOperand_ok hf]
  | false => simp [deriveOperand_overflow hf]

/-- ERR_OVERFLOW's condition: the packets of the command do not fit, or FC.SPLIT's rest is too long (R166). -/
def Overflows (i : Instr) (s : State) : Prop :=
  (∃ L, wouldPush i s = some L ∧ fits s L = false) ∨ RestTooLong i s

theorem not_restTooLong_of_ne {i : Instr} (h : i ≠ .fcSplit) (s : State) : ¬ RestTooLong i s :=
  fun hrest => h hrest.1

theorem restTooLong_fcSplit_iff (s : State) :
    RestTooLong .fcSplit s ↔ admits s.cfg.carryCap (splitSegments (s.carry ++ s.ibuf)).2.length = false := by
  rw [RestTooLong, admits_eq_false_iff, and_iff_right rfl]

/-- A command with one list of packets to push and no rest to keep overflows when they do not fit. -/
theorem overflows_iff_of_wouldPush_some {i : Instr} {s : State} {L : List Bytes} (h : i ≠ .fcSplit)
    (hpush : wouldPush i s = some L) : Overflows i s ↔ fits s L = false := by
  simp [Overflows, hpush, not_restTooLong_of_ne h]

theorem not_overflows_of_wouldPush_none {i : Instr} {s : State} (h : i ≠ .fcSplit) (hpush : wouldPush i s = none) :
    ¬ Overflows i s := by
  simp [Overflows, hpush, not_restTooLong_of_ne h]

/-- A running command raises ERR_OVERFLOW exactly under R166's condition. -/
theorem code_commandRule_eq_overflow_iff (i : Instr) (s : State) :
    (commandRule i s).code = .overflow ↔ Overflows i s := by
  cases i with
  | bufClr | fcFlush | scErase => exact iff_of_false nofun (not_overflows_of_wouldPush_none nofun rfl)
  | fcEnc | fcFrame =>
    exact (code_deliver_eq_overflow_iff _ s).trans (overflows_iff_of_wouldPush_some (by decide) rfl).symm
  | fcDec =>
    cases hdec : fcDecode s.ibuf with
    | none =>
      have hpush : wouldPush .fcDec s = none := by simp [wouldPush, hdec]
      rw [commandRule_fcDec_none hdec]
      exact iff_of_false nofun (not_overflows_of_wouldPush_none nofun hpush)
    | some r =>
      have hpush : wouldPush .fcDec s = some [r] := by simp [wouldPush, hdec]
      rw [commandRule_fcDec_some hdec, overflows_iff_of_wouldPush_some (by decide) hpush]
      exact code_deliver_eq_overflow_iff [r] s
  | fcSplit =>
    rw [commandRule, code_splitChunk_eq_overflow_iff, Overflows, restTooLong_fcSplit_iff, or_comm]
    simp [wouldPush]
  | scInit =>
    refine iff_of_false ?_ (not_overflows_of_wouldPush_none nofun rfl)
    by_cases hlen : s.ibuf.length = 44
    · rw [commandRule, initCipher_ok hlen]
      nofun
    · rw [commandRule, initCipher_fault hlen]
      nofun
  | scEncrypt | scDecrypt =>
    rw [commandRule, code_cryptOperand_eq_overflow_iff]
    cases hv : s.sce.valid with
    | false => exact iff_of_false nofun (not_overflows_of_wouldPush_none nofun (if_neg (by simp [hv])))
    | true =>
      rw [and_iff_right rfl]
      exact Iff.symm (overflows_iff_of_wouldPush_some (by decide) (if_pos hv))
  | kdDerive =>
    exact (code_deriveOperand_eq_overflow_iff s).trans (overflows_iff_of_wouldPush_some (by decide) rfl).symm

/-- A command that reports ERR_OVERFLOW wrote CODE alone, and some capacity is bounded (R166). -/
theorem commandRule_of_code_overflow {i : Instr} {s : State} (h : (commandRule i s).code = .overflow) :
    commandRule i s = { s with code := .overflow } ∧ ¬ AllUnbounded s.cfg := by
  obtain ⟨hcode, -⟩ | ⟨-, hoverflow⟩ | ⟨-, -, hrule⟩ | ⟨-, -, hrule⟩ | ⟨-, -, hrule⟩ := commandRule_cases i s
  · cases hcode.symm.trans h
  · exact hoverflow
  all_goals
    rw [hrule] at h
    cases h

/-- No rule reads CODE, and every outcome writes it: what CODE was before is lost (R55, R160). -/
theorem commandRule_code (i : Instr) (s : State) (c : Code) : commandRule i { s with code := c } = commandRule i s := by
  cases i <;> rfl

/-- Settles O26: the rule's CODE is ERR_OVERFLOW exactly under `Overflows`, then only CODE was written, and a retry
does not see the CODE the first attempt left. -/
theorem overflowHasNoEffectAndRetries : Obligations.OverflowHasNoEffectAndRetries := by
  unfold Obligations.OverflowHasNoEffectAndRetries
  intro i s t hf hexec
  obtain rfl := eq_commandRule_of_next hf hexec
  refine ⟨code_commandRule_eq_overflow_iff i s, fun h => ?_, fun hu h => (commandRule_of_code_overflow h).2 hu⟩
  obtain ⟨hrule, -⟩ := commandRule_of_code_overflow h
  refine ⟨hrule, fun q => ?_⟩
  rw [hrule, exec_running i (s := { s with code := .overflow, oq := q }) hf,
    exec_running i (s := { s with oq := q }) hf]
  exact congrArg _ (commandRule_code i { s with oq := q } .overflow)

/-! ## Fault entry -/

/-- No byte aliases a command (R53): one that decodes is the encoding of what it decodes to. -/
theorem encode_of_decode_ok {w : Byte} {i : Instr} (h : decode w = .ok i) : encode i = w := by
  unfold decode at h
  split at h
  case h_1 row hrow =>
    injection h with h
    rw [← h, encode_of_mem_opcodeMap (List.mem_of_find?_eq_some hrow)]
    simpa using List.find?_some hrow
  case h_2 => cases h

/-- A running command sets FAULT only as SC.INIT on an operand that is not 44 bytes (R167). -/
theorem scInit_of_fault_commandRule {i : Instr} {s : State} (hf : s.fault = false)
    (h : (commandRule i s).fault = true) : i = .scInit ∧ s.ibuf.length ≠ 44 := by
  obtain ⟨-, hkept⟩ | ⟨-, hrule, -⟩ | ⟨-, -, hrule⟩ | ⟨-, -, hrule⟩ | ⟨hi, hlen, -⟩ := commandRule_cases i s
  · rw [hkept, hf] at h
    cases h
  case inr.inr.inr.inr => exact ⟨hi, hlen⟩
  all_goals
    rw [hrule] at h
    cases hf.symm.trans h

/-- A transaction enters the fault state only as H_CMD(0x20) on an operand that is not 44 bytes (R167). -/
theorem scInit_of_fault_performState {x : Transaction} {s : State} (hf : s.fault = false)
    (h : (performState x s).fault = true) : x = .cmd 0x20 ∧ s.ibuf.length ≠ 44 := by
  obtain ⟨-, hfault, -⟩ | ⟨w, i, rfl, hdec, -, hx⟩ | ⟨w, -, -, hx⟩ | ⟨b, -, -, -, hx⟩ | ⟨r, -, -, hx⟩ |
    ⟨p, ps, -, -, hx⟩ | ⟨-, hx⟩ := performState_cases x s
  · cases hf.symm.trans hfault
  · rw [hx] at h
    obtain ⟨rfl, hlen⟩ := scInit_of_fault_commandRule hf h
    exact ⟨congrArg _ (encode_of_decode_ok hdec).symm, hlen⟩
  case inr.inr.inr.inr.inr.inr =>
    rw [hx] at h
    cases h
  all_goals
    rw [hx] at h
    cases hf.symm.trans h

/-- H_CMD(0x20) on an operand that is not 44 bytes is fault entry (R167). -/
theorem performState_scInit_fault {s : State} (hf : s.fault = false) (hlen : s.ibuf.length ≠ 44) :
    performState (.cmd 0x20) s = enterFault s := by
  rw [performState, commandState_ok hf (i := .scInit) rfl, commandRule, initCipher_fault hlen]

/-- Settles O27: a step that ends with FAULT = 1 performed SC.INIT's fault entry, whose effect is `enterFault`. -/
theorem faultEntryIsScInitsAlone : Obligations.FaultEntryIsScInitsAlone := by
  unfold Obligations.FaultEntryIsScInitsAlone
  intro s t hf hstep
  obtain ⟨hp, rfl⟩ | ⟨x, xs, hp, rfl⟩ := step_cases hstep
  · simp [hf, hp]
  · rw [hp]
    have hentry (h : (performState x { s with pending := xs }).fault = true) :
        x = .cmd 0x20 ∧ s.ibuf.length ≠ 44 := scInit_of_fault_performState (s := { s with pending := xs }) hf h
    refine ⟨⟨fun h => ?_, ?_⟩, fun h => ?_⟩
    · obtain ⟨rfl, hlen⟩ := hentry h
      exact ⟨⟨xs, rfl⟩, hlen⟩
    · rintro ⟨⟨ts, hx⟩, hlen⟩
      injection hx with hx
      rw [hx, performState_scInit_fault (s := { s with pending := xs }) hf hlen]
      rfl
    · obtain ⟨rfl, hlen⟩ := hentry h
      rw [performState_scInit_fault (s := { s with pending := xs }) hf hlen]
      exact ⟨rfl, rfl, rfl, rfl, rfl⟩

/-! ## The fault state -/

/-- In the fault state a transaction other than H_RESET keeps FAULT, and the queue but for the packet H_POP takes
(R169). -/
theorem performState_faulted {x : Transaction} {s : State} (hf : s.fault = true) (hx : x ≠ .reset) :
    (performState x s).fault = true ∧ (performState x s).oq = s.oq.drop ([x].count .pop) := by
  cases x with
  | push b =>
    rw [performState, hostPush_refused b (.inl hf)]
    exact ⟨hf, rfl⟩
  | cmd w =>
    rw [performState, commandState_faulted w hf]
    exact ⟨hf, rfl⟩
  | pop =>
    rw [performState]
    cases hq : s.oq with
    | nil =>
      rw [hostPop_empty hq]
      exact ⟨hf, hq⟩
    | cons p ps =>
      rw [hostPop_head hq]
      exact ⟨hf, rfl⟩
  | status => exact ⟨hf, rfl⟩
  | reset => exact absurd rfl hx

/-- A run without H_RESET stays in the fault state, and takes as many packets off the queue as it has H_POPs (R169). -/
theorem runState_faulted {us : List Transaction} {s : State} (hf : s.fault = true) (hus : .reset ∉ us) :
    (runState us s).fault = true ∧ (runState us s).oq = s.oq.drop (us.count .pop) := by
  induction us generalizing s with
  | nil => exact ⟨hf, rfl⟩
  | cons x us ih =>
    obtain ⟨hx, hus⟩ := not_or.mp (List.mem_cons.not.mp hus)
    obtain ⟨hfault, hoq⟩ := performState_faulted hf (Ne.symm hx)
    rw [runState, ← List.singleton_append, List.count_append, ← List.drop_drop, ← hoq]
    exact ih hfault hus

/-- Settles O6: each transaction by its refusal or its rule, H_POP as in any state (O8), and the runs by induction
over their transactions. -/
theorem faultStateRefusesWork : Obligations.FaultStateRefusesWork := by
  unfold Obligations.FaultStateRefusesWork
  intro s ts hf
  refine ⟨fun w hp => ?_, fun b hp => ?_, fun p ps hp => (popTakesTheHeadPacket s ts hp).1 p ps,
    fun hp => (popTakesTheHeadPacket s ts hp).2, fun hp => step_issued hp,
    fun hp => ⟨_, step_reset hp, rfl, rfl, rfl⟩, fun us hus => ?_⟩
  · rw [step_issued hp, performState, commandState_faulted w hf]
  · rw [step_issued hp, performState, hostPush_refused b (.inl hf)]
  · obtain ⟨hfault, hoq⟩ := runState_faulted hf hus
    refine ⟨?_, fun t ht => ?_⟩
    · rw [runView_eq, endView_notFinal (s := { runState us s with pending := [] }) hfault]
      exact congrArg (some <| EndView.notFinal ·) hoq
    · rw [after_eq] at ht
      injection ht with ht
      rw [← ht, State.Final, hfault]
      decide

end Sys2Proof.Machine
end

section
/-!
PROOFS. What one transaction and one step can do, said once as an inductive relation, and with it the invariants of
10_state.md sections 2 to 5 (R12 to R23, R28).
-/

namespace Sys2Proof.Machine

/-! ## The effects of a transaction -/

/-- What a transaction performed in state `s` can end in, one constructor per way of writing the state. -/
inductive Effect (s : State) : Transaction → State → Prop
  /-- A command in the fault state (R169). -/
  | refused (w : Byte) (hf : s.fault = true) : Effect s (.cmd w) s
  /-- ERR_ILLEGAL and ERR_OVERFLOW write CODE alone (R162, R166). -/
  | reports (w : Byte) (c : Code) (hf : s.fault = false) (hc : c ≠ .precond) : Effect s (.cmd w) { s with code := c }
  /-- BUF.CLR, ERR_MALFORMED and ERR_NOKEY drop the operand (R73, R163, R165). -/
  | dropsOperand (w : Byte) (c : Code) (hf : s.fault = false) (hc : c ≠ .precond) :
      Effect s (.cmd w) { s with ibuf := [], code := c }
  /-- The end of a command whose packets fit (R83, R84, R87, R130). -/
  | delivers (w : Byte) (ps : List Bytes) (hf : s.fault = false) (hfits : fits s ps = true) :
      Effect s (.cmd w) { s with oq := s.oq ++ ps, ibuf := [], code := .ok }
  /-- FC.SPLIT with room for the pieces and the rest (R90). -/
  | splits (complete : List Bytes) (rest : Bytes) (hf : s.fault = false)
      (hsplits : Splits (s.carry ++ s.ibuf) complete rest) (hcarry : admits s.cfg.carryCap rest.length = true)
      (hfits : fits s complete = true) :
      Effect s (.cmd 0x13) { s with oq := s.oq ++ complete, carry := rest, ibuf := [], code := .ok }
  /-- FC.FLUSH (R92). -/
  | flushes (hf : s.fault = false) : Effect s (.cmd 0x14) { s with carry := [], code := .ok }
  /-- SC.INIT on 44 bytes (R101). -/
  | loadsKey (hf : s.fault = false) (hlen : s.ibuf.length = 44) :
      Effect s (.cmd 0x20) { s with sce := loadedCipher s.ibuf, ibuf := [], code := .ok }
  /-- SC.INIT on any other length (R167). -/
  | faults (hf : s.fault = false) (hlen : s.ibuf.length ≠ 44) : Effect s (.cmd 0x20) (enterFault s)
  /-- SC.ENCRYPT and SC.DECRYPT with a key and room (R105, R106). -/
  | crypts (w : Byte) (hw : w = 0x21 ∨ w = 0x22) (hf : s.fault = false) (hvalid : s.sce.valid = true)
      (hfits : fits s [(xorStream s.cfg.blockFn s.sce s.ibuf).1] = true) :
      Effect s (.cmd w)
        { s with
          oq := s.oq ++ [(xorStream s.cfg.blockFn s.sce s.ibuf).1]
          sce := (xorStream s.cfg.blockFn s.sce s.ibuf).2, ibuf := [], code := .ok }
  /-- SC.ERASE (R107). -/
  | erases (hf : s.fault = false) : Effect s (.cmd 0x23) { s with sce := erasedCipher, code := .ok }
  /-- H_PUSH with room (R71). -/
  | accepts (b : Byte) (hf : s.fault = false) (hroom : admits s.cfg.ibufCap (s.ibuf.length + 1) = true) :
      Effect s (.push b) { s with ibuf := s.ibuf ++ [b], returned := s.returned ++ [.accepted true] }
  /-- A refused H_PUSH, H_POP on an empty queue, H_STATUS (R71, R72, R74). -/
  | givesBack (x : Transaction) (r : Returned) : Effect s x { s with returned := s.returned ++ [r] }
  /-- H_POP on a queue with a packet (R72). -/
  | pops (p : Bytes) (ps : List Bytes) (hq : s.oq = p :: ps) :
      Effect s .pop { s with oq := ps, returned := s.returned ++ [.packet p] }
  /-- H_RESET (R190). -/
  | resets : Effect s .reset (resetCore s)

/-- The split of R90 exists for every byte string. -/
theorem splits_splitSegments (B : Bytes) : Splits B (splitSegments B).1 (splitSegments B).2 := by
  induction B with
  | nil => exact ⟨rfl, List.forall_mem_nil _, List.not_mem_nil⟩
  | cons b B ih =>
    obtain ⟨heq, hpieces, hrest⟩ := ih
    by_cases hb : b = 0
    · rw [hb, splitSegments_zero]
      exact ⟨congrArg (0 :: ·) heq, List.forall_mem_cons.mpr ⟨List.not_mem_nil, hpieces⟩, hrest⟩
    · cases hc : (splitSegments B).1 with
      | nil =>
        rw [splitSegments_last hb hc]
        rw [hc] at heq
        exact ⟨congrArg (b :: ·) heq, List.forall_mem_nil _, List.not_mem_cons_of_ne_of_not_mem (Ne.symm hb) hrest⟩
      | cons p ps =>
        rw [splitSegments_more hb hc]
        rw [hc] at heq hpieces
        obtain ⟨hp, hps⟩ := List.forall_mem_cons.mp hpieces
        have hbp : (0 : Byte) ∉ b :: p := List.not_mem_cons_of_ne_of_not_mem (Ne.symm hb) hp
        exact ⟨congrArg (b :: ·) heq, List.forall_mem_cons.mpr ⟨hbp, hps⟩, hrest⟩

theorem Splits.rest_zeroFree {B : Bytes} {complete : List Bytes} {rest : Bytes} (h : Splits B complete rest) :
    (0 : Byte) ∉ rest := by
  obtain ⟨-, -, hrest⟩ := h
  exact hrest

theorem effect_deliver (w : Byte) (ps : List Bytes) {s : State} (hf : s.fault = false) :
    Effect s (.cmd w) (deliver ps s) := by
  cases hfits : fits s ps with
  | true =>
    rw [deliver_fits hfits]
    exact .delivers w ps hf hfits
  | false =>
    rw [deliver_overflow hfits]
    exact .reports w .overflow hf nofun

theorem effect_splitChunk {s : State} (hf : s.fault = false) : Effect s (.cmd 0x13) (splitChunk s) := by
  by_cases h : admits s.cfg.carryCap (splitSegments (s.carry ++ s.ibuf)).2.length = false ∨
      fits s (splitSegments (s.carry ++ s.ibuf)).1 = false
  · rw [splitChunk_overflow h]
    exact .reports 0x13 .overflow hf nofun
  · obtain ⟨hcarry, hfits⟩ := not_or.mp h
    rw [Bool.not_eq_false] at hcarry hfits
    rw [splitChunk_ok hcarry hfits]
    exact .splits _ _ hf (splits_splitSegments _) hcarry hfits

theorem effect_initCipher {s : State} (hf : s.fault = false) : Effect s (.cmd 0x20) (initCipher s) := by
  by_cases hlen : s.ibuf.length = 44
  · rw [initCipher_ok hlen]
    exact .loadsKey hf hlen
  · rw [initCipher_fault hlen]
    exact .faults hf hlen

theorem effect_cryptOperand {w : Byte} (hw : w = 0x21 ∨ w = 0x22) {s : State} (hf : s.fault = false) :
    Effect s (.cmd w) (cryptOperand s) := by
  have hroom : fits s [(xorStream s.cfg.blockFn s.sce s.ibuf).1] = fits s [zeros s.ibuf.length] :=
    fits_congr rfl rfl rfl (by simp)
  cases hvalid : s.sce.valid with
  | false =>
    rw [cryptOperand_nokey hvalid]
    exact .dropsOperand w .nokey hf nofun
  | true =>
    cases hfits : fits s [zeros s.ibuf.length] with
    | true =>
      rw [cryptOperand_ok hvalid hfits]
      exact .crypts w hw hf hvalid (hroom.trans hfits)
    | false =>
      rw [cryptOperand_overflow hvalid hfits]
      exact .reports w .overflow hf nofun

theorem effect_deriveOperand {s : State} (hf : s.fault = false) : Effect s (.cmd 0x30) (deriveOperand s) := by
  have hroom : fits s [knPacket (derive s.cfg s.ibuf).1 (derive s.cfg s.ibuf).2] = fits s [zeros 44] :=
    fits_congr rfl rfl rfl (by simp [length_derived_packet])
  cases hfits : fits s [zeros 44] with
  | true =>
    rw [deriveOperand_ok hfits]
    exact .delivers 0x30 _ hf (hroom.trans hfits)
  | false =>
    rw [deriveOperand_overflow hfits]
    exact .reports 0x30 .overflow hf nofun

/-- Every command's rule has one of the effects (R53, R54 step 3). -/
theorem effect_commandRule (i : Instr) {s : State} (hf : s.fault = false) :
    Effect s (.cmd (encode i)) (commandRule i s) := by
  cases i with
  | bufClr => exact .dropsOperand _ .ok hf nofun
  | fcEnc | fcFrame => exact effect_deliver _ _ hf
  | fcDec =>
    cases hdec : fcDecode s.ibuf with
    | none =>
      rw [commandRule_fcDec_none hdec]
      exact .dropsOperand _ .malformed hf nofun
    | some r =>
      rw [commandRule_fcDec_some hdec]
      exact effect_deliver _ [r] hf
  | fcSplit => exact effect_splitChunk hf
  | fcFlush => exact .flushes hf
  | scInit => exact effect_initCipher hf
  | scEncrypt => exact effect_cryptOperand (.inl rfl) hf
  | scDecrypt => exact effect_cryptOperand (.inr rfl) hf
  | scErase => exact .erases hf
  | kdDerive => exact effect_deriveOperand hf

/-- Every transaction has one of the effects (R50). -/
theorem effect_performState (x : Transaction) (s : State) : Effect s x (performState x s) := by
  obtain ⟨hx, hf, w, rfl⟩ | ⟨w, i, rfl, hdec, hf, hx⟩ | ⟨w, rfl, hf, hx⟩ | ⟨b, rfl, hf, hroom, hx⟩ |
    ⟨r, -, -, hx⟩ | ⟨p, ps, rfl, hq, hx⟩ | ⟨rfl, hx⟩ := performState_cases x s <;> rw [hx]
  · exact .refused w hf
  · rw [← encode_of_decode_ok hdec]
    exact effect_commandRule i hf
  · exact .reports w .illegal hf nofun
  · exact .accepts b hf hroom
  · exact .givesBack x r
  · exact .pops p ps hq
  · exact .resets

/-- A step does nothing, or has the effect of the oldest issued transaction (R40, R41). -/
theorem step_effect {s t : State} (h : step s = .next t) :
    t = s ∨ ∃ x xs, s.pending = x :: xs ∧ Effect { s with pending := xs } x t := by
  obtain ⟨-, ht⟩ | ⟨x, xs, hp, rfl⟩ := step_cases h
  · exact .inl ht
  · exact .inr ⟨x, xs, hp, effect_performState x _⟩

/-- A property of the state that every effect keeps, and that does not speak of what is pending, is kept by every
step. -/
theorem step_keeps {P : State → Prop} (hpending : ∀ s q, P s → P { s with pending := q })
    (heffect : ∀ {s x t}, Effect s x t → P s → P t) {s t : State} (hs : P s) (h : step s = .next t) : P t := by
  obtain rfl | ⟨x, xs, -, he⟩ := step_effect h
  · exact hs
  · exact heffect he (hpending s xs hs)

/-! ## The invariants -/

@[simp] theorem admits_zero (c : Capacity) : admits c 0 = true := by
  cases c <;> simp

/-- Packets pushed only when they fit, bytes kept only when there is room (R12, R13, R14). -/
theorem Effect.keeps_withinCaps {s t : State} {x : Transaction} (he : Effect s x t) (h : s.WithinCaps) :
    t.WithinCaps := by
  obtain ⟨hibuf, hpkts, hbytes, hcarry⟩ := h
  cases he with
  | refused | reports | erases | givesBack => exact ⟨hibuf, hpkts, hbytes, hcarry⟩
  | dropsOperand | loadsKey | faults => exact ⟨admits_zero _, hpkts, hbytes, hcarry⟩
  | delivers _ _ _ hfits | crypts _ _ _ _ hfits =>
    exact ⟨admits_zero _, (caps_of_fits hfits).1, (caps_of_fits hfits).2, hcarry⟩
  | splits _ _ _ _ hrest hfits => exact ⟨admits_zero _, (caps_of_fits hfits).1, (caps_of_fits hfits).2, hrest⟩
  | flushes => exact ⟨hibuf, hpkts, hbytes, admits_zero _⟩
  | accepts b _ hroom => exact ⟨by simpa using hroom, hpkts, hbytes, hcarry⟩
  | pops p ps hq =>
    rw [hq] at hpkts hbytes
    exact ⟨hibuf, admits_mono hpkts (by simp), admits_mono hbytes (by simp), hcarry⟩
  | resets => exact ⟨admits_zero _, admits_zero _, admits_zero _, admits_zero _⟩

/-- CARRY is written with the zero-free rest of a split, or emptied (R14). -/
theorem Effect.keeps_carryZeroFree {s t : State} {x : Transaction} (he : Effect s x t) (h : s.CarryZeroFree) :
    t.CarryZeroFree := by
  cases he with
  | splits _ _ _ hsplits => exact hsplits.rest_zeroFree
  | flushes | resets => exact List.not_mem_nil
  | refused | reports | dropsOperand | delivers | loadsKey | faults | crypts | erases | accepts | givesBack | pops =>
    exact h

theorem erasedUnlessValid_of_sce_eq_erased {t : State} (h : t.sce = erasedCipher) : t.ErasedUnlessValid := by
  intro _
  rw [h]
  exact ⟨rfl, rfl, rfl, rfl, rfl⟩

/-- The engine is written with the erased one, or with one whose SC_VALID is 1 (R21 (b)). -/
theorem Effect.keeps_erasedUnlessValid {s t : State} {x : Transaction} (he : Effect s x t)
    (h : s.ErasedUnlessValid) : t.ErasedUnlessValid := by
  cases he with
  | loadsKey => nofun
  | crypts _ _ _ hvalid =>
    intro hinvalid
    obtain ⟨-, -, hkept⟩ := xorStream_keys s.cfg.blockFn s.sce s.ibuf
    cases hvalid.symm.trans (hkept.symm.trans hinvalid)
  | faults | erases | resets => exact erasedUnlessValid_of_sce_eq_erased rfl
  | refused | reports | dropsOperand | delivers | splits | flushes | accepts | givesBack | pops => exact h

theorem faultCoherent_of_running {t : State} (hf : t.fault = false) (hc : t.code ≠ .precond) : t.FaultCoherent := by
  simp [State.FaultCoherent, hf, hc]

/-- FAULT and ERR_PRECOND are set together with the engine erased, and outside the fault state CODE is written with
other outcomes (R23, R167). -/
theorem Effect.keeps_faultCoherent {s t : State} {x : Transaction} (he : Effect s x t) (h : s.FaultCoherent) :
    t.FaultCoherent := by
  cases he with
  | refused | accepts | givesBack | pops => exact h
  | reports _ _ hf hc | dropsOperand _ _ hf hc => exact faultCoherent_of_running hf hc
  | delivers _ _ hf | splits _ _ hf | flushes hf | loadsKey hf | crypts _ _ hf | erases hf =>
    exact faultCoherent_of_running hf nofun
  | faults => exact ⟨iff_of_true rfl rfl, fun _ => rfl⟩
  | resets => exact faultCoherent_of_running rfl nofun

theorem Effect.keeps_inv {s t : State} {x : Transaction} (he : Effect s x t) (h : s.Inv) : t.Inv := by
  obtain ⟨hcaps, hcarry, herased, hfault⟩ := h
  exact ⟨he.keeps_withinCaps hcaps, he.keeps_carryZeroFree hcarry, he.keeps_erasedUnlessValid herased,
    he.keeps_faultCoherent hfault⟩

/-- Settles O31: each of the four invariants is kept by every effect of a transaction. -/
theorem invariantsKeptByEveryStep : Obligations.InvariantsKeptByEveryStep := by
  unfold Obligations.InvariantsKeptByEveryStep
  exact fun s t h => step_keeps (fun _ _ h => h) Effect.keeps_inv h

/-! ## The position on the stream -/

/-- The stream moves an engine from position n to position n + |X| (R21 (c)). -/
theorem atPosition_xorStream {bf : BlockFn} {n : Nat} {c : Cipher} (h : c.AtPosition bf n) (X : Bytes) :
    (xorStream bf c X).2.AtPosition bf (n + X.length) := by
  induction X generalizing n c with
  | nil => exact h
  | cons x X ih =>
    rw [xorStream_cons, List.length_cons, ← Nat.succ_add_eq_add_succ]
    exact ih (nextKeystreamByte_position h).2

theorem Effect.keeps_onItsStream {s t : State} {x : Transaction} (he : Effect s x t) (h : s.OnItsStream) :
    t.OnItsStream := by
  cases he with
  | loadsKey => exact fun _ => ⟨0, loadedCipher_atPosition _ _⟩
  | crypts _ _ _ hvalid =>
    obtain ⟨n, hn⟩ := h hvalid
    exact fun _ => ⟨n + s.ibuf.length, atPosition_xorStream hn s.ibuf⟩
  | faults | erases | resets => nofun
  | refused | reports | dropsOperand | delivers | splits | flushes | accepts | givesBack | pops => exact h

/-- Settles O32: SC.INIT puts the engine at position 0, the cipher operation moves it on by the operand's length, and
no other effect leaves a loaded engine changed. -/
theorem streamPositionKeptByEveryStep : Obligations.StreamPositionKeptByEveryStep := by
  unfold Obligations.StreamPositionKeptByEveryStep
  exact fun s t h => step_keeps (fun _ _ h => h) Effect.keeps_onItsStream h

/-! ## The parameters -/

theorem Effect.cfg_eq {s t : State} {x : Transaction} (he : Effect s x t) : t.cfg = s.cfg := by
  cases he <;> rfl

/-- Settles O33: no effect writes the parameters. -/
theorem parametersNeverChange : Obligations.ParametersNeverChange := by
  unfold Obligations.ParametersNeverChange
  intro s t h
  exact step_keeps (P := fun u => u.cfg = s.cfg) (fun _ _ h => h) (fun he h => he.cfg_eq.trans h) rfl h

/-! ## Who writes KEY, NONCE and SC_VALID -/

/-- KEY, NONCE and SC_VALID keep their values but under SC.INIT, SC.ERASE and H_RESET (R15, R16, R20). -/
theorem Effect.keys_eq {s t : State} {x : Transaction} (he : Effect s x t)
    (hx : ¬(x = .cmd 0x20 ∨ x = .cmd 0x23 ∨ x = .reset)) :
    t.sce.key = s.sce.key ∧ t.sce.nonce = s.sce.nonce ∧ t.sce.valid = s.sce.valid := by
  cases he with
  | crypts => exact xorStream_keys s.cfg.blockFn s.sce s.ibuf
  | loadsKey | faults | erases | resets => simp at hx
  | refused | reports | dropsOperand | delivers | splits | flushes | accepts | givesBack | pops =>
    exact ⟨rfl, rfl, rfl⟩

/-- SC_VALID becomes 1 only by SC.INIT on 44 bytes (R20). -/
theorem Effect.loads_of_valid {s t : State} {x : Transaction} (he : Effect s x t) (hs : s.sce.valid = false)
    (ht : t.sce.valid = true) : x = .cmd 0x20 ∧ s.ibuf.length = 44 ∧ t.code = .ok := by
  cases he with
  | loadsKey _ hlen => exact ⟨rfl, hlen, rfl⟩
  | crypts _ _ _ hvalid => cases hs.symm.trans hvalid
  | faults | erases | resets => cases ht
  | refused | reports | dropsOperand | delivers | splits | flushes | accepts | givesBack | pops =>
    cases hs.symm.trans ht

/-- Settles O34: the effects that write KEY, NONCE or SC_VALID are those of the three transactions, and only SC.INIT's
leaves SC_VALID at 1 where it was 0. -/
theorem keyLoadedOnlyByScInit : Obligations.KeyLoadedOnlyByScInit := by
  unfold Obligations.KeyLoadedOnlyByScInit
  intro s t h
  obtain rfl | ⟨x, xs, hp, he⟩ := step_effect h
  · exact ⟨by simp, fun h h' => nomatch h.symm.trans h'⟩
  · refine ⟨fun hchanged => ⟨x, xs, hp, ?_⟩, fun hs ht => ?_⟩
    · by_contra hx
      obtain ⟨hkey, hnonce, hvalid⟩ := he.keys_eq hx
      simp [hkey, hnonce, hvalid] at hchanged
    · obtain ⟨rfl, hlen, hcode⟩ := he.loads_of_valid hs ht
      exact ⟨⟨xs, hp⟩, hlen, hcode⟩

/-! ## Who writes CARRY -/

theorem Effect.carry_eq {s t : State} {x : Transaction} (he : Effect s x t)
    (hx : ¬(x = .cmd 0x13 ∨ x = .cmd 0x14 ∨ x = .reset)) : t.carry = s.carry := by
  cases he with
  | splits | flushes | resets => simp at hx
  | refused | reports | dropsOperand | delivers | loadsKey | faults | crypts | erases | accepts | givesBack | pops =>
    rfl

/-- Settles O35: the effects that write CARRY are those of the three transactions; H_RESET and a running FC.FLUSH
empty it. -/
theorem carryWrittenOnlyBySplitFlushReset : Obligations.CarryWrittenOnlyBySplitFlushReset := by
  unfold Obligations.CarryWrittenOnlyBySplitFlushReset
  intro s t h
  refine ⟨fun hchanged => ?_, fun ts hx => ?_⟩
  · obtain rfl | ⟨x, xs, hp, he⟩ := step_effect h
    · exact absurd rfl hchanged
    · exact ⟨x, xs, hp, by_contra fun hx => hchanged (he.carry_eq hx)⟩
  · obtain hp | ⟨hp, hf⟩ := hx
    · rw [step_reset hp] at h
      injection h with h
      rw [← h, resetCore_carry]
    · rw [step_issued hp, performState, commandState_ok (i := .fcFlush) hf rfl] at h
      injection h with h
      rw [← h]
      rfl

/-! ## Who writes OQ -/

theorem Effect.oq_cases {s t : State} {x : Transaction} (he : Effect s x t) :
    (∃ added, t.oq = s.oq ++ added) ∨
    (∃ p, x = .pop ∧ s.oq = p :: t.oq ∧ t.returned = s.returned ++ [.packet p]) ∨ (x = .reset ∧ t.oq = []) := by
  cases he with
  | delivers _ ps => exact .inl ⟨ps, rfl⟩
  | splits complete => exact .inl ⟨complete, rfl⟩
  | crypts => exact .inl ⟨_, rfl⟩
  | pops p ps hq => exact .inr (.inl ⟨p, rfl, hq, rfl⟩)
  | resets => exact .inr (.inr ⟨rfl, rfl⟩)
  | refused | reports | dropsOperand | flushes | loadsKey | faults | erases | accepts | givesBack =>
    exact .inl ⟨[], (List.append_nil _).symm⟩

/-- Settles O36: commands append to the queue, H_POP takes its head, H_RESET empties it, and nothing else writes it. -/
theorem queueIsFirstInFirstOut : Obligations.QueueIsFirstInFirstOut := by
  unfold Obligations.QueueIsFirstInFirstOut
  intro s t h
  obtain rfl | ⟨x, xs, hp, he⟩ := step_effect h
  · exact .inl ⟨[], (List.append_nil _).symm⟩
  · refine he.oq_cases.imp_right (Or.imp ?_ ?_)
    · rintro ⟨p, rfl, hq, hreturned⟩
      exact ⟨p, xs, hp, hq, hreturned⟩
    · rintro ⟨rfl, hq⟩
      exact ⟨xs, hp, hq⟩

end Sys2Proof.Machine
end

section
/-!
PROOFS. 10_state.md sections 3 and 5: KEY and NONCE influence nothing but the cipher commands (R15, R16, R26).
-/

namespace Sys2Proof.Machine

/-- The same state with another KEY and NONCE. -/
def State.withKeys (key : Key) (nonce : Nonce) (s : State) : State :=
  { s with sce := { s.sce with key := key, nonce := nonce } }

theorem SameButKey.eq_withKeys {s t : State} (h : SameButKey s t) : t = s.withKeys t.sce.key t.sce.nonce := h

theorem sameButKey_withKeys (key : Key) (nonce : Nonce) (s : State) : SameButKey s (s.withKeys key nonce) := rfl

theorem SameButKey.returned_eq {s t : State} (h : SameButKey s t) : s.returned = t.returned := by
  rw [h.eq_withKeys]; rfl

theorem SameButKey.oq_eq {s t : State} (h : SameButKey s t) : s.oq = t.oq := by
  rw [h.eq_withKeys]; rfl

section
variable (key : Key) (nonce : Nonce) (s : State)

/-- Delivering packets looks at the parameters and the queue. -/
theorem sameButKey_deliver (ps : List Bytes) : SameButKey (deliver ps s) (deliver ps (s.withKeys key nonce)) := by
  cases h : fits s ps with
  | true => rw [deliver_fits h, deliver_fits (s := s.withKeys key nonce) h]; rfl
  | false => rw [deliver_overflow h, deliver_overflow (s := s.withKeys key nonce) h]; rfl

theorem sameButKey_splitChunk : SameButKey (splitChunk s) (splitChunk (s.withKeys key nonce)) := by
  by_cases h : admits s.cfg.carryCap (splitSegments (s.carry ++ s.ibuf)).2.length = false ∨
      fits s (splitSegments (s.carry ++ s.ibuf)).1 = false
  · rw [splitChunk_overflow h, splitChunk_overflow (s := s.withKeys key nonce) h]; rfl
  · obtain ⟨hcarry, hfits⟩ := not_or.mp h
    rw [Bool.not_eq_false] at hcarry hfits
    rw [splitChunk_ok hcarry hfits, splitChunk_ok (s := s.withKeys key nonce) hcarry hfits]; rfl

/-- SC.INIT overwrites KEY and NONCE whatever they are (R102). -/
theorem sameButKey_initCipher : SameButKey (initCipher s) (initCipher (s.withKeys key nonce)) := by
  by_cases h : s.ibuf.length = 44
  · rw [initCipher_ok h, initCipher_ok (s := s.withKeys key nonce) h]; rfl
  · rw [initCipher_fault h, initCipher_fault (s := s.withKeys key nonce) h]; rfl

theorem sameButKey_deriveOperand : SameButKey (deriveOperand s) (deriveOperand (s.withKeys key nonce)) := by
  cases h : fits s [zeros 44] with
  | true => rw [deriveOperand_ok h, deriveOperand_ok (s := s.withKeys key nonce) h]; rfl
  | false => rw [deriveOperand_overflow h, deriveOperand_overflow (s := s.withKeys key nonce) h]; rfl

/-- No command's rule but the cipher operation reads KEY or NONCE. -/
theorem sameButKey_commandRule {i : Instr} (henc : i ≠ .scEncrypt) (hdec : i ≠ .scDecrypt) :
    SameButKey (commandRule i s) (commandRule i (s.withKeys key nonce)) := by
  cases i with
  | bufClr | fcFlush | scErase => rfl
  | fcEnc | fcFrame => exact sameButKey_deliver key nonce s _
  | fcDec =>
    cases h : fcDecode s.ibuf with
    | none => rw [commandRule_fcDec_none h, commandRule_fcDec_none (s := s.withKeys key nonce) h]; rfl
    | some r =>
      rw [commandRule_fcDec_some h, commandRule_fcDec_some (s := s.withKeys key nonce) h]
      exact sameButKey_deliver key nonce s [r]
  | fcSplit => exact sameButKey_splitChunk key nonce s
  | scInit => exact sameButKey_initCipher key nonce s
  | scEncrypt => exact absurd rfl henc
  | scDecrypt => exact absurd rfl hdec
  | kdDerive => exact sameButKey_deriveOperand key nonce s

theorem sameButKey_commandState {w : Byte} (henc : w ≠ 0x21) (hdec : w ≠ 0x22) :
    SameButKey (commandState w s) (commandState w (s.withKeys key nonce)) := by
  cases hf : s.fault with
  | true => rw [commandState_faulted w hf, commandState_faulted w (s := s.withKeys key nonce) hf]; rfl
  | false =>
    cases hw : decode w with
    | ok i =>
      have hbyte := encode_of_decode_ok hw
      rw [commandState_ok hf hw, commandState_ok (s := s.withKeys key nonce) hf hw]
      refine sameButKey_commandRule key nonce s ?_ ?_
      · rintro rfl
        exact henc hbyte.symm
      · rintro rfl
        exact hdec hbyte.symm
    | error e => rw [commandState_illegal hf hw, commandState_illegal (s := s.withKeys key nonce) hf hw]; rfl

theorem sameButKey_hostPush (b : Byte) : SameButKey (hostPush b s) (hostPush b (s.withKeys key nonce)) := by
  by_cases h : s.fault = true ∨ admits s.cfg.ibufCap (s.ibuf.length + 1) = false
  · rw [hostPush_refused b h, hostPush_refused (s := s.withKeys key nonce) b h]; rfl
  · obtain ⟨hf, hroom⟩ := not_or.mp h
    rw [Bool.not_eq_true] at hf
    rw [Bool.not_eq_false] at hroom
    rw [hostPush_ok b hf hroom, hostPush_ok (s := s.withKeys key nonce) b hf hroom]; rfl

theorem sameButKey_hostPop : SameButKey (hostPop s) (hostPop (s.withKeys key nonce)) := by
  cases h : s.oq with
  | nil => rw [hostPop_empty h, hostPop_empty (s := s.withKeys key nonce) h]; rfl
  | cons p ps => rw [hostPop_head h, hostPop_head (s := s.withKeys key nonce) h]; rfl

/-- No transaction but the two cipher commands reads KEY or NONCE. -/
theorem sameButKey_performState {x : Transaction} (henc : x ≠ .cmd 0x21) (hdec : x ≠ .cmd 0x22) :
    SameButKey (performState x s) (performState x (s.withKeys key nonce)) := by
  cases x with
  | push b => exact sameButKey_hostPush key nonce s b
  | cmd w =>
    exact sameButKey_commandState key nonce s (fun h => henc (congrArg _ h)) (fun h => hdec (congrArg _ h))
  | pop => exact sameButKey_hostPop key nonce s
  | status | reset => rfl

theorem sameButKey_stepState (hx : ∀ ts, s.pending ≠ .cmd 0x21 :: ts ∧ s.pending ≠ .cmd 0x22 :: ts) :
    SameButKey (stepState s) (stepState (s.withKeys key nonce)) := by
  unfold stepState
  rw [show (s.withKeys key nonce).pending = s.pending from rfl]
  cases hp : s.pending with
  | nil => exact sameButKey_withKeys key nonce s
  | cons x xs =>
    obtain ⟨henc, hdec⟩ := hx xs
    rw [hp] at henc hdec
    exact sameButKey_performState key nonce { s with pending := xs } (fun h => henc (h ▸ rfl)) fun h => hdec (h ▸ rfl)

end

/-- Settles O37: both states perform the same transaction, which is none of the two that read KEY and NONCE. -/
theorem keyInfluencesOnlyTheCipherCommands : Obligations.KeyInfluencesOnlyTheCipherCommands := by
  unfold Obligations.KeyInfluencesOnlyTheCipherCommands
  intro s₁ s₂ t₁ t₂ hsame hx h₁ h₂
  obtain ⟨key, nonce, rfl⟩ : ∃ key nonce, s₂ = s₁.withKeys key nonce := ⟨_, _, hsame.eq_withKeys⟩
  suffices hnext : SameButKey t₁ t₂ from ⟨hnext, hnext.returned_eq, hnext.oq_eq⟩
  rw [step_eq] at h₁ h₂
  injection h₁ with h₁
  injection h₂ with h₂
  rw [← h₁, ← h₂]
  exact sameButKey_stepState key nonce s₁ hx

end Sys2Proof.Machine
end

section
/-!
PROOFS. The reset state (R29), STATUS (R22), H_RESET (R190) and `fits` (00_scope.md section 4).
-/

namespace Sys2Proof.Machine

/-! ## Reset -/

theorem reset_withinCaps : State.reset.WithinCaps := ⟨rfl, rfl, rfl, rfl⟩

/-- Settles O30: the buffers are empty, the engine is erased, and CODE is OK. -/
theorem resetStateMeetsTheInvariants : Obligations.ResetStateMeetsTheInvariants := by
  unfold Obligations.ResetStateMeetsTheInvariants
  have hinv : State.reset.Inv :=
    ⟨reset_withinCaps, List.not_mem_nil, erasedUnlessValid_of_sce_eq_erased reset_sce,
      faultCoherent_of_running rfl nofun⟩
  exact ⟨hinv, nofun, rfl, ⟨rfl, rfl, rfl, rfl⟩, by decide⟩

/-- Settles O12: the step of H_RESET ends in `resetCore`, whatever the state was. -/
theorem resetCompletesInEveryState : Obligations.ResetCompletesInEveryState := by
  unfold Obligations.ResetCompletesInEveryState
  exact fun s ts hp => step_reset hp

/-! ## STATUS -/

/-- The sum of R74 as a word of its four parts. -/
def statusOf (c : Code) (fault valid oqNe : Bool) : W32 :=
  BitVec.ofNat 32 (codeNumber c + 8 * fault.toNat + 16 * valid.toNat + 32 * oqNe.toNat)

theorem statusWord_eq_statusOf (s : State) : statusWord s = statusOf s.code s.fault s.sce.valid (oqNotEmpty s) := rfl

/-- The fields of the word do not overlap (R22). -/
theorem statusOf_fields (c : Code) : ∀ fault valid oqNe : Bool,
    (statusOf c fault valid oqNe).extractLsb' 0 3 = BitVec.ofNat 3 (codeNumber c) ∧
    (statusOf c fault valid oqNe).getLsbD 3 = fault ∧
    (statusOf c fault valid oqNe).getLsbD 4 = valid ∧
    (statusOf c fault valid oqNe).getLsbD 5 = oqNe ∧
    (statusOf c fault valid oqNe).extractLsb' 6 26 = 0 := by
  cases c <;> decide

theorem oqNotEmpty_eq (s : State) : oqNotEmpty s = decide (s.oq ≠ []) := by
  unfold oqNotEmpty
  cases s.oq <;> rfl

/-- Settles O10: STATUS is a word of four parts whose bits do not overlap, and CODE is at most 5. -/
theorem statusFieldsAndReservedBits : Obligations.StatusFieldsAndReservedBits := by
  unfold Obligations.StatusFieldsAndReservedBits
  intro s
  rw [statusWord_eq_statusOf, ← oqNotEmpty_eq]
  obtain ⟨hcode, hfault, hvalid, hoq, hreserved⟩ := statusOf_fields s.code s.fault s.sce.valid (oqNotEmpty s)
  refine ⟨hcode, ?_, hfault, hvalid, hoq, hreserved⟩
  rw [hcode, BitVec.toNat_ofNat]
  exact (Nat.mod_le _ _).trans (codeNumber_le s.code)

/-! ## fits -/

/-- Settles O29: `fits` is the conjunction of the two capacity tests. -/
theorem fitsMeansBothCapacities : Obligations.FitsMeansBothCapacities := by
  unfold Obligations.FitsMeansBothCapacities
  intro s L
  rw [fits, Bool.and_eq_true, admits_iff, admits_iff]
  rfl

end Sys2Proof.Machine
end

section
/-!
PROOFS. 20_memory.md section 4 and 30_encoding.md: the transactions in order (R40), the command bytes (R51 to R54),
the outcomes of commands (R160), and that everything completes (R202).
-/

namespace Sys2Proof.Machine

/-! ## Transactions -/

/-- Settles O1: a step branches on the list of issued transactions. -/
theorem issuedTransactionsRunInOrder : Obligations.IssuedTransactionsRunInOrder := by
  unfold Obligations.IssuedTransactionsRunInOrder
  refine ⟨fun s t ts hp => ?_, fun s hp => ?_⟩ <;> rw [step, performNext, hp]

/-- Settles O2: H_CMD runs what its byte decodes to. -/
theorem stepRunsTheDecodedCommand : Obligations.StepRunsTheDecodedCommand := by
  unfold Obligations.StepRunsTheDecodedCommand
  intro s w ts i hp hdec _
  rw [step, performNext, hp]
  simp only [perform, hostCommand, hdec]

/-- Settles O28: a command, a step and a run are each the next state of a total function. -/
theorem everyTransactionCompletes : Obligations.EveryTransactionCompletes := by
  unfold Obligations.EveryTransactionCompletes
  refine ⟨fun i s => ?_, fun s => ⟨_, step_eq s⟩, fun s ts => ⟨_, after_eq s ts, rfl⟩⟩
  cases hf : s.fault with
  | true => exact ⟨s, exec_faulted i hf⟩
  | false => exact ⟨_, exec_running i hf⟩

/-! ## The command bytes -/

theorem decode_encode (i : Instr) : decode (encode i) = .ok i := by
  cases i <;> rfl

/-- Settles O3: each byte is the encoding of its command. -/
theorem commandBytesOfTheOpcodeMap : Obligations.CommandBytesOfTheOpcodeMap := by
  unfold Obligations.CommandBytesOfTheOpcodeMap
  exact ⟨decode_encode .bufClr, decode_encode .fcEnc, decode_encode .fcFrame, decode_encode .fcDec,
    decode_encode .fcSplit, decode_encode .fcFlush, decode_encode .scInit, decode_encode .scEncrypt,
    decode_encode .scDecrypt, decode_encode .scErase, decode_encode .kdDerive⟩

/-- Settles O4: the opcode map holds each command once, at the byte the encoder writes. -/
theorem encodeDecodeAgree : Obligations.EncodeDecodeAgree := by
  unfold Obligations.EncodeDecodeAgree
  exact ⟨fun i _ => decode_encode i, fun w i h => encode_of_decode_ok h⟩

/-! ## The outcomes -/

theorem decode_ok_of_not_illegalByte {w : Byte} (h : ¬ IllegalByte w) : ∃ i, decode w = .ok i := by
  rw [illegalByte_iff, ← toOption_decode_eq_none_iff] at h
  cases hdec : decode w with
  | ok i => exact ⟨i, rfl⟩
  | error e =>
    rw [hdec] at h
    exact absurd rfl h

/-- No command's own rule reports ERR_ILLEGAL (R162). -/
theorem code_commandRule_ne_illegal (i : Instr) (s : State) : (commandRule i s).code ≠ .illegal := by
  obtain ⟨hcode, -⟩ | ⟨-, hrule, -⟩ | ⟨-, -, hrule⟩ | ⟨-, -, hrule⟩ | ⟨-, -, hrule⟩ := commandRule_cases i s
  · rw [hcode]
    nofun
  all_goals
    rw [hrule]
    nofun

/-- Outside the fault state H_CMD ends in ERR_ILLEGAL exactly on the illegal bytes (R56, R162). -/
theorem code_commandState_eq_illegal_iff {s : State} (hf : s.fault = false) (w : Byte) :
    (commandState w s).code = .illegal ↔ IllegalByte w := by
  by_cases hw : IllegalByte w
  · obtain ⟨e, hdec⟩ := decode_error_of_illegalByte hw
    rw [commandState_illegal hf hdec]
    exact iff_of_true rfl hw
  · obtain ⟨i, hdec⟩ := decode_ok_of_not_illegalByte hw
    rw [commandState_ok hf hdec]
    exact iff_of_false (code_commandRule_ne_illegal i s) hw

/-- Settles O25: ERR_ILLEGAL belongs to the bytes that do not decode, and every other outcome is one of the cases of
a command's rule. -/
theorem outcomesChangeWhatTheTableSays : Obligations.OutcomesChangeWhatTheTableSays := by
  unfold Obligations.OutcomesChangeWhatTheTableSays
  refine ⟨⟨rfl, rfl, rfl, rfl, rfl, rfl⟩, fun s w ts t hp hf hstep => ⟨?_, fun hw => ?_⟩, fun i s t hf hexec => ?_⟩
  · rw [step_eq, stepState, hp] at hstep
    injection hstep with hstep
    rw [← hstep]
    exact code_commandState_eq_illegal_iff (s := { s with pending := ts }) hf w
  · obtain ⟨e, hdec⟩ := decode_error_of_illegalByte hw
    rw [step_cmd_of_decode_error hp hf hdec] at hstep
    injection hstep with hstep
    exact hstep.symm
  · obtain rfl := eq_commandRule_of_next hf hexec
    obtain ⟨hcode, hfault⟩ | ⟨hi, hrule, -⟩ | ⟨hi, hdec, hrule⟩ | ⟨hi, hvalid, hrule⟩ | ⟨hi, hlen, hrule⟩ :=
      commandRule_cases i s
    · rw [hcode]
      exact hfault.trans hf
    · rw [hrule]
      exact ⟨hi, rfl⟩
    · rw [hrule]
      exact ⟨hi, hdec, rfl⟩
    · rw [hrule]
      exact ⟨hi, hvalid, rfl⟩
    · rw [hrule]
      exact ⟨hi, hlen, rfl⟩

end Sys2Proof.Machine
end

section
/-!
PROOFS. 41_frame_codec.md sections 1 and 2: the encoder's runs (R82, R89) and the round trip (R85).
-/

namespace Sys2Proof.Machine

/-! ## The runs of the encoder -/

/-- Settles O39: a code byte is never zero, and the literals of a run have no zero byte. -/
theorem encodeNeverEmitsZero : Obligations.EncodeNeverEmitsZero := by
  unfold Obligations.EncodeNeverEmitsZero
  exact zero_notMem_fcEncode

@[simp] theorem length_runBytes (r : Bytes) : (runBytes r).length = r.length + 1 := rfl

/-- What is still to be written, from any open run: a code byte a run, and at most one run more for every 254 bytes
(R82 (b)). -/
theorem length_stuffedBytes_encodeRuns (P : Bytes) {lits : Bytes} (h : lits.length ≤ 253) :
    lits.length + P.length + 1 ≤ (stuffedBytes (encodeRuns P lits)).length ∧
      (stuffedBytes (encodeRuns P lits)).length ≤ lits.length + P.length + 1 + (lits.length + P.length) / 254 := by
  induction P generalizing lits with
  | nil => simp [encodeRuns]
  | cons b P ih =>
    have hfresh := ih (lits := []) (Nat.zero_le _)
    rw [List.length_nil] at hfresh
    have hlength : (lits ++ [b]).length = lits.length + 1 := List.length_append
    rw [List.length_cons]
    by_cases hb : b = 0
    · rw [hb, encodeRuns_zero, stuffedBytes_cons, List.length_append, length_runBytes]
      omega
    · by_cases hfull : lits.length = 253
      · rw [encodeRuns_full hb hfull, stuffedBytes_cons, List.length_append, length_runBytes, hlength]
        omega
      · have hgrown := ih (lits := lits ++ [b]) (by omega)
        rw [encodeRuns, if_neg hb, if_neg (by omega)]
        omega

/-- Settles O40: the bounds hold from any open run, so from the empty one. -/
theorem encodeLengthBounds : Obligations.EncodeLengthBounds := by
  unfold Obligations.EncodeLengthBounds
  intro P
  have h := length_stuffedBytes_encodeRuns P (lits := []) (Nat.zero_le _)
  rwa [List.length_nil, Nat.zero_add, ← fcEncode_eq_runs] at h

/-- A run that is not the last contributes its literals and, unless it is maximal, one zero (R58). -/
theorem stuffedPayload_cons {rs : List Bytes} (h : rs ≠ []) (r : Bytes) :
    stuffedPayload (r :: rs) = r ++ (if r.length = 254 then [] else [0]) ++ stuffedPayload rs := by
  obtain ⟨r', rs, rfl⟩ := List.exists_cons_of_ne_nil h
  simp [stuffedPayload]

theorem encodeRuns_ne_nil (P lits : Bytes) : encodeRuns P lits ≠ [] := by
  induction P generalizing lits with
  | nil => nofun
  | cons b P ih =>
    rw [encodeRuns]
    split
    · nofun
    · split
      · nofun
      · exact ih _

/-- The runs mean the open run's literals and the payload still to come (R82 (d)). -/
theorem stuffedPayload_encodeRuns (P : Bytes) {lits : Bytes} (h : lits.length ≤ 253) :
    stuffedPayload (encodeRuns P lits) = lits ++ P := by
  induction P generalizing lits with
  | nil => simp [encodeRuns, stuffedPayload]
  | cons b P ih =>
    have hfresh := ih (lits := []) (Nat.zero_le _)
    have hlength : (lits ++ [b]).length = lits.length + 1 := List.length_append
    by_cases hb : b = 0
    · rw [hb, encodeRuns_zero, stuffedPayload_cons (encodeRuns_ne_nil P []), if_neg (by omega), hfresh]
      simp
    · by_cases hfull : lits.length = 253
      · rw [encodeRuns_full hb hfull, stuffedPayload_cons (encodeRuns_ne_nil P []), if_pos (by omega), hfresh]
        simp
      · rw [encodeRuns, if_neg hb, if_neg (by omega), ih (by omega)]
        simp

/-- The last run is not maximal: behind 254 literals a new run is always opened (R81). -/
theorem exists_encodeRuns_eq_concat (P : Bytes) {lits : Bytes} (h : lits.length ≤ 253) :
    ∃ (runs : List Bytes) (last : Bytes), encodeRuns P lits = runs ++ [last] ∧ last.length ≤ 253 := by
  induction P generalizing lits with
  | nil => exact ⟨[], lits, rfl, h⟩
  | cons b P ih =>
    obtain ⟨runs, last, hruns, hlast⟩ := ih (lits := []) (Nat.zero_le _)
    by_cases hb : b = 0
    · exact ⟨lits :: runs, last, by rw [hb, encodeRuns_zero, hruns]; rfl, hlast⟩
    · by_cases hfull : lits.length = 253
      · exact ⟨(lits ++ [b]) :: runs, last, by rw [encodeRuns_full hb hfull, hruns]; rfl, hlast⟩
      · have hlength : (lits ++ [b]).length = lits.length + 1 := List.length_append
        rw [encodeRuns, if_neg hb, if_neg (by omega)]
        exact ih (by omega)

/-- Settles O41: the form is that of the encoder's runs, whose bounds, meaning and last run are known. -/
theorem encodeWritesAWellFormedForm : Obligations.EncodeWritesAWellFormedForm := by
  unfold Obligations.EncodeWritesAWellFormedForm
  intro P
  have hwf := encodeRuns_wf P List.not_mem_nil (Nat.zero_le _)
  have hpayload := stuffedPayload_encodeRuns P (lits := []) (Nat.zero_le _)
  obtain ⟨runs, last, hruns, hlast⟩ := exists_encodeRuns_eq_concat P (lits := []) (Nat.zero_le _)
  rw [hruns] at hwf hpayload
  exact ⟨runs, last, by rw [fcEncode_eq_runs, hruns], fun r hr => (hwf r hr).1, hlast, fun r hr => (hwf r hr).2,
    hpayload⟩

/-! ## The decoder on whole runs -/

/-- The decoder reads one whole run: its literals, the zero it implies, and the rest (R85). -/
theorem fcDecode_runBytes_append {r : Bytes} (h : r.length ≤ 254) (S : Bytes) :
    fcDecode (runBytes r ++ S) =
      (fcDecode S).map fun P => r ++ (if r.length ≠ 254 ∧ S ≠ [] then [0] else []) ++ P := by
  have hwhole : ¬(r ++ S).length < r.length := by simp
  rw [runBytes, List.cons_append, fcDecode_cons, if_neg (runCode_ne_zero h), toNat_runCode h, Nat.add_sub_cancel,
    if_neg hwhole, List.take_left, List.drop_left]
  simp

theorem stuffedBytes_ne_nil {runs : List Bytes} (h : runs ≠ []) : stuffedBytes runs ≠ [] := by
  obtain ⟨r, rs, rfl⟩ := List.exists_cons_of_ne_nil h
  rw [stuffedBytes_cons, runBytes]
  nofun

theorem fcDecode_stuffedBytes {runs : List Bytes} (h : RunsOk runs) :
    fcDecode (stuffedBytes runs) = some (stuffedPayload runs) := by
  induction runs with
  | nil => rfl
  | cons r rs ih =>
    obtain ⟨hr, hrs⟩ := List.forall_mem_cons.mp h
    rw [stuffedBytes_cons, fcDecode_runBytes_append hr, ih hrs, Option.map_some]
    by_cases hlast : rs = []
    · simp [hlast, stuffedPayload]
    · rw [stuffedPayload_cons hlast]
      simp [stuffedBytes_ne_nil hlast, ite_not]

/-- Settles O43: run by run, the decoder adds what the run contributes to the meaning. -/
theorem decodeReadsEveryWellFormedForm : Obligations.DecodeReadsEveryWellFormedForm := by
  unfold Obligations.DecodeReadsEveryWellFormedForm
  exact fun runs => fcDecode_stuffedBytes

theorem fcDecode_fcEncode (P : Bytes) : fcDecode (fcEncode P) = some P := by
  obtain ⟨runs, last, hform, hruns, -, -, hpayload⟩ := encodeWritesAWellFormedForm P
  rw [hform, fcDecode_stuffedBytes hruns, hpayload]

/-- Settles O42: a stuffed form is well formed and means its payload, and the decoder reads it as its meaning. -/
theorem decodeInvertsEncode : Obligations.DecodeInvertsEncode := by
  unfold Obligations.DecodeInvertsEncode
  exact fcDecode_fcEncode

/-- What does decode is whole runs (R85, R86). -/
theorem exists_runs_of_fcDecode_eq_some : ∀ {S P : Bytes}, fcDecode S = some P →
    ∃ runs, RunsOk runs ∧ S = stuffedBytes runs
  | [], _, _ => ⟨[], List.forall_mem_nil _, rfl⟩
  | code :: rest, P, h => by
    have hgood : ¬fcDecode (code :: rest) = none := by simp [h]
    rw [fcDecode_cons_eq_none_iff, not_or, not_or, not_lt] at hgood
    obtain ⟨⟨hzero, hlen⟩, hleft⟩ := hgood
    obtain ⟨r, hr, hsplit⟩ := exists_runBytes_append hzero hlen
    obtain ⟨P', hP'⟩ := Option.ne_none_iff_exists'.mp hleft
    obtain ⟨runs, hruns, heq⟩ := exists_runs_of_fcDecode_eq_some hP'
    exact ⟨r :: runs, List.forall_mem_cons.mpr ⟨hr, hruns⟩, by rw [hsplit, heq, stuffedBytes_cons]⟩
termination_by S => S.length
decreasing_by
  rw [List.length_drop, List.length_cons]
  omega

/-- A run means at most as many bytes as it has, its code byte paying for the zero it implies. -/
theorem length_stuffedPayload_le (runs : List Bytes) : (stuffedPayload runs).length ≤ (stuffedBytes runs).length := by
  induction runs with
  | nil => exact le_rfl
  | cons r rs ih =>
    rw [stuffedBytes_cons, List.length_append, length_runBytes]
    by_cases hlast : rs = []
    · simp only [hlast, stuffedPayload]
      omega
    · have hzero : (if r.length = 254 then [] else [(0 : Byte)]).length ≤ 1 := by split <;> simp
      rw [stuffedPayload_cons hlast, List.length_append, List.length_append]
      omega

/-- Settles O45: what decodes is whole runs, and whole runs mean no more bytes than they have. -/
theorem decodeNeverLengthens : Obligations.DecodeNeverLengthens := by
  unfold Obligations.DecodeNeverLengthens
  intro S P h
  obtain ⟨runs, hruns, rfl⟩ := exists_runs_of_fcDecode_eq_some h
  rw [fcDecode_stuffedBytes hruns] at h
  injection h with h
  rw [← h]
  exact length_stuffedPayload_le runs

end Sys2Proof.Machine
end

section
/-!
PROOFS. 41_frame_codec.md section 3: the split is unique (R90), and chunk boundaries do not matter (R91, R93).
-/

namespace Sys2Proof.Machine

/-! ## The split -/

/-- Every zero ends a piece, and there are no others. -/
theorem Splits.length_eq_count {B : Bytes} {complete : List Bytes} {rest : Bytes} (h : Splits B complete rest) :
    complete.length = B.count 0 := by
  obtain ⟨rfl, hpieces, hrest⟩ := h
  induction complete with
  | nil => exact (List.count_eq_zero.mpr hrest).symm
  | cons p ps ih =>
    obtain ⟨hp, hps⟩ := List.forall_mem_cons.mp hpieces
    rw [List.length_cons, ih hps]
    simp only [List.flatMap_cons, List.count_append, List.count_eq_zero.mpr hp, List.count_singleton_self]
    omega

/-- Settles O18: `splitSegments` finds a writing, every other is the one it finds, and each zero ends one piece. -/
theorem streamSplitsInOneWay : Obligations.StreamSplitsInOneWay := by
  unfold Obligations.StreamSplitsInOneWay
  intro B
  have hsplits := splits_splitSegments B
  refine ⟨_, _, hsplits, hsplits.length_eq_count, fun complete' rest' h => ?_⟩
  rw [splitSegments_eq_of_splits h]
  exact ⟨rfl, rfl⟩

/-- The rest of a split is where the split of a longer stream goes on. -/
theorem Splits.append {A B rest rest' : Bytes} {complete complete' : List Bytes} (h : Splits A complete rest)
    (h' : Splits (rest ++ B) complete' rest') : Splits (A ++ B) (complete ++ complete') rest' := by
  obtain ⟨rfl, hpieces, -⟩ := h
  obtain ⟨heq, hpieces', hrest'⟩ := h'
  refine ⟨?_, List.forall_mem_append.mpr ⟨hpieces, hpieces'⟩, hrest'⟩
  rw [List.append_assoc, heq, List.flatMap_append, List.append_assoc]

theorem splitSegments_append (A B : Bytes) :
    splitSegments (A ++ B) =
      ((splitSegments A).1 ++ (splitSegments ((splitSegments A).2 ++ B)).1,
       (splitSegments ((splitSegments A).2 ++ B)).2) :=
  splitSegments_eq_of_splits ((splits_splitSegments A).append (splits_splitSegments _))

/-! ## Chunks -/

/-- A state that waits for the next chunk, with every capacity unbounded. -/
structure Waiting (s : State) : Prop where
  fault : s.fault = false
  ibuf : s.ibuf = []
  caps : AllUnbounded s.cfg

/-- `t` is `s` after the bytes `B` of the stream have gone through FC.SPLIT. -/
structure Fed (s : State) (B : Bytes) (t : State) : Prop where
  waiting : Waiting t
  oq : t.oq = s.oq ++ (splitSegments (s.carry ++ B)).1
  carry : t.carry = (splitSegments (s.carry ++ B)).2

theorem Fed.trans {s t u : State} {A B : Bytes} (h : Fed s A t) (h' : Fed t B u) : Fed s (A ++ B) u := by
  refine ⟨h'.waiting, ?_, ?_⟩
  · rw [h'.oq, h.oq, h.carry, ← List.append_assoc s.carry, splitSegments_append (s.carry ++ A), List.append_assoc]
  · rw [h'.carry, h.carry, ← List.append_assoc s.carry, splitSegments_append (s.carry ++ A)]

theorem fed_nil {s : State} (h : Waiting s) (hcarry : s.CarryZeroFree) : Fed s [] s := by
  refine ⟨h, ?_, ?_⟩ <;> rw [List.append_nil, splitSegments_zeroFree hcarry]
  rw [List.append_nil]

/-- What is fed leaves CARRY zero-free (R14). -/
theorem Fed.carryZeroFree {s t : State} {B : Bytes} (h : Fed s B t) : t.CarryZeroFree := by
  rw [State.CarryZeroFree, h.carry]
  exact (splits_splitSegments _).rest_zeroFree

/-- Pushing a string appends it to IBUF, where nothing bounds it. -/
theorem runState_pushes {s : State} (hf : s.fault = false) (hcap : s.cfg.ibufCap = .unbounded) (chunk : Bytes) :
    ∃ returned, runState (chunk.map .push) s = { s with ibuf := s.ibuf ++ chunk, returned := returned } := by
  induction chunk generalizing s with
  | nil => exact ⟨s.returned, by rw [List.append_nil]; rfl⟩
  | cons b chunk ih =>
    have hpush : performState (.push b) s = _ := hostPush_ok b hf (by rw [hcap, admits_unbounded])
    obtain ⟨returned, hrun⟩ :=
      ih (s := { s with ibuf := s.ibuf ++ [b], returned := s.returned ++ [.accepted true] }) hf hcap
    refine ⟨returned, ?_⟩
    rw [List.map_cons, runState, hpush, hrun, List.append_assoc, List.singleton_append]

theorem AllUnbounded.carryCap_eq {c : Config} (h : AllUnbounded c) : c.carryCap = .unbounded := by
  obtain ⟨-, -, -, hcarry⟩ := h
  exact hcarry

/-- FC.SPLIT where nothing is bounded (R90). -/
theorem performState_fcSplit {s : State} (hf : s.fault = false) (hcaps : AllUnbounded s.cfg) :
    performState (.cmd 0x13) s =
      { s with
        oq := s.oq ++ (splitSegments (s.carry ++ s.ibuf)).1
        carry := (splitSegments (s.carry ++ s.ibuf)).2, ibuf := [], code := .ok } := by
  rw [performState, commandState_ok (i := .fcSplit) hf rfl, commandRule,
    splitChunk_ok (by rw [hcaps.carryCap_eq, admits_unbounded]) (fits_of_unbounded hcaps _)]

theorem fed_feedChunk {s : State} (h : Waiting s) (chunk : Bytes) : Fed s chunk (runState (feedChunk chunk) s) := by
  obtain ⟨hf, hibuf, hcaps⟩ := h
  obtain ⟨returned, hrun⟩ := runState_pushes hf hcaps.1 chunk
  rw [hibuf, List.nil_append] at hrun
  rw [feedChunk, runState_append, hrun, runState, runState,
    performState_fcSplit (s := { s with ibuf := chunk, returned := returned }) hf hcaps]
  exact ⟨⟨hf, rfl, hcaps⟩, rfl, rfl⟩

/-- The chunks' bytes go through FC.SPLIT as their concatenation would (R91). -/
theorem fed_feedChunks {s : State} (h : Waiting s) (hcarry : s.CarryZeroFree) (chunks : List Bytes) :
    Fed s chunks.flatten (runState (feedChunks chunks) s) := by
  induction chunks generalizing s with
  | nil => exact fed_nil h hcarry
  | cons chunk chunks ih =>
    have hchunk := fed_feedChunk h chunk
    rw [feedChunks, List.flatMap_cons, runState_append, List.flatten_cons]
    exact hchunk.trans (ih hchunk.waiting hchunk.carryZeroFree)

/-- The run that delivers the chunks ends in a state fed with their concatenation. -/
theorem exists_after_feedChunks {s : State} (h : Waiting s) (hcarry : s.CarryZeroFree) (chunks : List Bytes) :
    ∃ t, after s (feedChunks chunks) = .next t ∧ Fed s chunks.flatten t := by
  obtain ⟨⟨hf, hibuf, hcaps⟩, hoq, hcarry⟩ := fed_feedChunks h hcarry chunks
  exact ⟨_, after_eq s (feedChunks chunks), ⟨hf, hibuf, hcaps⟩, hoq, hcarry⟩

/-- Settles O46: what a run of chunks leaves is that of feeding their concatenation, which is one and the same. -/
theorem segmentsIndependentOfChunking : Obligations.SegmentsIndependentOfChunking := by
  unfold Obligations.SegmentsIndependentOfChunking
  intro s chunks₁ chunks₂ hf hibuf hcarry hcaps hsame
  obtain ⟨t₁, ht₁, hfed₁⟩ := exists_after_feedChunks ⟨hf, hibuf, hcaps⟩ hcarry chunks₁
  obtain ⟨t₂, ht₂, hfed₂⟩ := exists_after_feedChunks ⟨hf, hibuf, hcaps⟩ hcarry chunks₂
  rw [hsame] at hfed₁
  exact ⟨t₁, t₂, ht₁, ht₂, hfed₁.waiting.fault, hfed₂.waiting.fault, hfed₁.oq.trans hfed₂.oq.symm,
    hfed₁.carry.trans hfed₂.carry.symm, hfed₁.waiting.ibuf, hfed₂.waiting.ibuf⟩

/-! ## Frames -/

/-- Frames back to back split into their stuffed forms with no rest (R93). -/
theorem splits_frames (payloads : List Bytes) :
    Splits (payloads.flatMap fun P => fcEncode P ++ [0]) (payloads.map fcEncode) [] := by
  refine ⟨?_, List.forall_mem_map.mpr fun P _ => zero_notMem_fcEncode P, List.not_mem_nil⟩
  rw [List.append_nil, List.flatMap_map]

/-- FC.DEC of a stuffed form gives its payload, where nothing bounds the queue (R87, R93). -/
theorem exists_fcDec_fcEncode {t : State} (h : Waiting t) (P : Bytes) :
    ∃ u, exec .fcDec { t with ibuf := fcEncode P } = .next u ∧ u.oq = t.oq ++ [P] ∧ u.code = .ok := by
  have hrule := commandRule_fcDec_some (s := { t with ibuf := fcEncode P }) (fcDecode_fcEncode P)
  obtain ⟨hexec, -⟩ := exec_of_commandRule_eq_deliver (s := { t with ibuf := fcEncode P }) h.fault hrule
  specialize hexec (fits_of_unbounded h.caps [P])
  exact ⟨_, hexec, rfl, rfl⟩

/-- Settles O47: the chunks feed the frames, the frames split into their stuffed forms, and each decodes. -/
theorem framesSurviveAnyChunking : Obligations.FramesSurviveAnyChunking := by
  unfold Obligations.FramesSurviveAnyChunking
  intro s payloads chunks hf hibuf hcarry hcaps hframes
  have hzero : s.CarryZeroFree := by
    rw [State.CarryZeroFree, hcarry]
    exact List.not_mem_nil
  obtain ⟨t, ht, hfed⟩ := exists_after_feedChunks ⟨hf, hibuf, hcaps⟩ hzero chunks
  have hsplit : splitSegments (s.carry ++ chunks.flatten) = (payloads.map fcEncode, []) := by
    rw [hcarry, List.nil_append, hframes, splitSegments_eq_of_splits (splits_frames payloads)]
  refine ⟨t, ht, hfed.waiting.fault, ?_, ?_, fun P _ => exists_fcDec_fcEncode hfed.waiting P⟩
  · rw [hfed.oq, hsplit]
  · rw [hfed.carry, hsplit]

end Sys2Proof.Machine
end

section
/-!
PROOFS. 42_stream_cipher.md section 1: the stream and its keystream (R103, R108).
-/

namespace Sys2Proof.Machine

/-! ## The keystream -/

/-- From position n, output byte j is input byte j XOR KS(n + j) (R103). -/
theorem getElem?_xorStream {bf : BlockFn} {n : Nat} {c : Cipher} (h : c.AtPosition bf n) {X : Bytes} {j : Nat}
    (hj : j < X.length) :
    (xorStream bf c X).1[j]? = some (X[j] ^^^ keystream bf c.key c.nonce (n + j)) := by
  induction X generalizing n c j with
  | nil => exact absurd hj j.not_lt_zero
  | cons x X ih =>
    obtain ⟨hbyte, hnext⟩ := nextKeystreamByte_position h
    obtain ⟨hkey, hnonce, -⟩ := nextKeystreamByte_keys bf c
    rw [xorStream_cons]
    cases j with
    | zero => rw [hbyte]; rfl
    | succ j =>
      rw [List.getElem?_cons_succ, ih hnext (Nat.lt_of_succ_lt_succ hj), hkey, hnonce, Nat.succ_add_eq_add_succ]
      rfl

/-- Settles O49: byte by byte the engine meets the keystream at its position and moves on by one. -/
theorem streamBytesMeetTheKeystream : Obligations.StreamBytesMeetTheKeystream := by
  unfold Obligations.StreamBytesMeetTheKeystream
  intro bf n c X h
  obtain ⟨hkey, hnonce, -⟩ := xorStream_keys bf c X
  exact ⟨fun j hj => getElem?_xorStream h hj, atPosition_xorStream h X, hkey, hnonce⟩

/-! ## Two operands -/

/-- The state after an SC.ENCRYPT of `X` that ended OK (R105). -/
def encryptedState (s : State) (X : Bytes) : State :=
  { s with
    oq := s.oq ++ [(xorStream s.cfg.blockFn s.sce X).1], sce := (xorStream s.cfg.blockFn s.sce X).2
    ibuf := [], code := .ok }

/-- SC.ENCRYPT with a key, where nothing bounds the queue (R105). -/
theorem exec_scEncrypt_unbounded {s : State} (hf : s.fault = false) (hvalid : s.sce.valid = true)
    (hcaps : AllUnbounded s.cfg) (X : Bytes) :
    exec .scEncrypt { s with ibuf := X } = .next (encryptedState s X) :=
  (exec_of_commandRule_eq_cryptOperand (s := { s with ibuf := X }) hf rfl).1 hvalid (fits_of_unbounded hcaps _)

theorem encryptedState_valid (s : State) (X : Bytes) : (encryptedState s X).sce.valid = s.sce.valid := by
  obtain ⟨-, -, hvalid⟩ := xorStream_keys s.cfg.blockFn s.sce X
  exact hvalid

/-- Settles O50: the second command's stream goes on where the first one's ended. -/
theorem cipherSplitIndependent : Obligations.CipherSplitIndependent := by
  unfold Obligations.CipherSplitIndependent
  intro s X₁ X₂ hf hvalid hcaps
  have happend := xorStream_append s.cfg.blockFn s.sce X₁ X₂
  refine ⟨encryptedState s X₁, encryptedState (encryptedState s X₁) X₂, encryptedState s (X₁ ++ X₂), _, _,
    exec_scEncrypt_unbounded hf hvalid hcaps X₁, rfl,
    exec_scEncrypt_unbounded (s := encryptedState s X₁) hf ((encryptedState_valid s X₁).trans hvalid) hcaps X₂,
    List.append_assoc _ _ _, exec_scEncrypt_unbounded hf hvalid hcaps (X₁ ++ X₂), ?_, ?_,
    length_xorStream _ _ _, length_xorStream _ _ _⟩
  · exact congrArg (s.oq ++ [·.1]) happend
  · exact (congrArg Prod.snd happend :)

/-! ## The same keystream twice -/

/-- The stream applied to its own output gives the input back, and the engine moves as before (R108 (a)). -/
theorem xorStream_xorStream (bf : BlockFn) (c : Cipher) (X : Bytes) :
    xorStream bf c (xorStream bf c X).1 = (X, (xorStream bf c X).2) := by
  induction X generalizing c with
  | nil => rfl
  | cons x X ih =>
    rw [xorStream_cons, xorStream_cons, ih, BitVec.xor_assoc, BitVec.xor_self, BitVec.xor_zero]

/-- Settles O51: the second engine runs the same stream on the first one's output. -/
theorem decryptInvertsEncryptAcrossEngines : Obligations.DecryptInvertsEncryptAcrossEngines := by
  unfold Obligations.DecryptInvertsEncryptAcrossEngines
  intro a b X hfa hfb hvalid hsce hbf hca hcb
  have hback : xorStream b.cfg.blockFn b.sce (xorStream a.cfg.blockFn a.sce X).1 =
      (X, (xorStream a.cfg.blockFn a.sce X).2) := by
    rw [hbf, hsce, xorStream_xorStream]
  have hvalidb : b.sce.valid = true := by rw [hsce, hvalid]
  refine ⟨encryptedState a X, encryptedState b _, _, exec_scEncrypt_unbounded hfa hvalid hca X, rfl,
    (exec_scDecrypt _).trans (exec_scEncrypt_unbounded hfb hvalidb hcb _), ?_, ?_⟩
  · exact congrArg (b.oq ++ [·.1]) hback
  · exact (congrArg Prod.snd hback :)

/-- Two bytes under one keystream byte differ as they did without it. -/
theorem xor_xor_xor_same (x y k : Byte) : (x ^^^ k) ^^^ (y ^^^ k) = x ^^^ y := by
  rw [BitVec.xor_comm y k, BitVec.xor_assoc, ← BitVec.xor_assoc k k, BitVec.xor_self, BitVec.zero_xor]

/-- Settles O52: byte by byte both operands meet the same keystream byte, and the engine moves by the length alone. -/
theorem outputsDifferAsInputsDiffer : Obligations.OutputsDifferAsInputsDiffer := by
  unfold Obligations.OutputsDifferAsInputsDiffer
  intro bf c X X' hlen
  induction X generalizing c X' with
  | nil => rw [List.eq_nil_of_length_eq_zero hlen.symm]; exact ⟨rfl, rfl⟩
  | cons x X ih =>
    cases X' with
    | nil => cases hlen
    | cons x' X' =>
      obtain ⟨hdiff, hengine⟩ := ih (nextKeystreamByte bf c).2 X' (Nat.succ.inj hlen)
      rw [xorStream_cons, xorStream_cons, List.zipWith_cons_cons, List.zipWith_cons_cons, hdiff, xor_xor_xor_same]
      exact ⟨rfl, hengine⟩

end Sys2Proof.Machine
end

section
/-!
PROOFS. 42_stream_cipher.md section 2: the quarter round (R112, R113) and the bytes of the default BLOCK_FN (R111,
R114).
-/

namespace Sys2Proof.Machine

/-! ## The quarter round -/

/-- The rotation as numbers: the low part moved up, the high part brought down (R8). -/
theorem toNat_rotl32 (x : W32) (n : Nat) :
    (rotl32 x n).toNat = (x.toNat * 2 ^ n % 2 ^ 32) ||| (x.toNat / 2 ^ (32 - n)) := by
  rw [rotl32, BitVec.toNat_or, BitVec.toNat_shiftLeft, BitVec.toNat_ushiftRight, Nat.shiftLeft_eq,
    Nat.shiftRight_eq_div_pow]

/-- Word `i` after a quarter round: the last of the four writes that wrote it, or the word before. -/
theorem getElem_quarterRound (w : Words16) (a b c d i : Fin 16) :
    (quarterRound w a b c d)[i] =
      if d = i then (quarterWords w[a] w[b] w[c] w[d]).2.2.2
      else if c = i then (quarterWords w[a] w[b] w[c] w[d]).2.2.1
      else if b = i then (quarterWords w[a] w[b] w[c] w[d]).2.1
      else if a = i then (quarterWords w[a] w[b] w[c] w[d]).1
      else w[i] := by
  simp [quarterRound, Vector.getElem_set, Fin.ext_iff]

/-- "leaves the other twelve" (R112). -/
theorem getElem_quarterRound_of_notMem {w : Words16} {a b c d i : Fin 16} (h : i ∉ [a, b, c, d]) :
    (quarterRound w a b c d)[i] = w[i] := by
  simp only [List.mem_cons, List.not_mem_nil, or_false, not_or] at h
  obtain ⟨ha, hb, hc, hd⟩ := h
  rw [getElem_quarterRound, if_neg (Ne.symm hd), if_neg (Ne.symm hc), if_neg (Ne.symm hb), if_neg (Ne.symm ha)]

/-- The four words written depend on those four words alone. -/
theorem getElem_quarterRound_congr {w w' : Words16} {a b c d : Fin 16}
    (h : ∀ i ∈ [a, b, c, d], w[i] = w'[i]) {i : Fin 16} (hi : i ∈ [a, b, c, d]) :
    (quarterRound w a b c d)[i] = (quarterRound w' a b c d)[i] := by
  rw [getElem_quarterRound, getElem_quarterRound, h i hi, h a (by simp), h b (by simp), h c (by simp), h d (by simp)]

section
variable {a b c d a' b' c' d' : Fin 16} (hdisjoint : [a, b, c, d].Disjoint [a', b', c', d'])
include hdisjoint

/-- Outside the words of the second quarter round it does not matter whether it runs. -/
theorem getElem_quarterRound_comm (w : Words16) {i : Fin 16} (hi : i ∉ [a', b', c', d']) :
    (quarterRound (quarterRound w a b c d) a' b' c' d')[i] =
      (quarterRound (quarterRound w a' b' c' d') a b c d)[i] := by
  rw [getElem_quarterRound_of_notMem hi]
  by_cases hfirst : i ∈ [a, b, c, d]
  · exact getElem_quarterRound_congr (fun j hj => (getElem_quarterRound_of_notMem (hdisjoint hj)).symm) hfirst
  · rw [getElem_quarterRound_of_notMem hfirst, getElem_quarterRound_of_notMem hfirst,
      getElem_quarterRound_of_notMem hi]

theorem quarterRound_comm (w : Words16) :
    quarterRound (quarterRound w a b c d) a' b' c' d' = quarterRound (quarterRound w a' b' c' d') a b c d := by
  refine Vector.ext fun i hi => ?_
  by_cases hsecond : (⟨i, hi⟩ : Fin 16) ∈ [a', b', c', d']
  · exact (getElem_quarterRound_comm hdisjoint.symm w (i := ⟨i, hi⟩) fun h => hdisjoint h hsecond).symm
  · exact getElem_quarterRound_comm hdisjoint w (i := ⟨i, hi⟩) hsecond

end

/-- Four functions that commute with one another may be applied in the reverse order. -/
theorem comp_four_reverse {α : Type} {f g h k : α → α} (hfg : Function.Commute f g) (hfh : Function.Commute f h)
    (hfk : Function.Commute f k) (hgh : Function.Commute g h) (hgk : Function.Commute g k) (hhk : Function.Commute h k)
    (x : α) : k (h (g (f x))) = f (g (h (k x))) := by
  rw [← hfg x, ← hfh (g x), ← hfk (h (g x)), ← hgh x, ← hgk (h x), ← hhk x]

theorem quarterRound_commute {a b c d a' b' c' d' : Fin 16} (h : [a, b, c, d, a', b', c', d'].Nodup) :
    Function.Commute (quarterRound · a b c d) (quarterRound · a' b' c' d') :=
  fun w => (quarterRound_comm (List.disjoint_of_nodup_append (l₁ := [a, b, c, d]) h) w).symm

/-- The columns share no word, so they may be taken in the reverse order (R113). -/
theorem columnRound_reverse (w : Words16) :
    columnRound w =
      quarterRound (quarterRound (quarterRound (quarterRound w 3 7 11 15) 2 6 10 14) 1 5 9 13) 0 4 8 12 := by
  refine comp_four_reverse (f := (quarterRound · 0 4 8 12)) (g := (quarterRound · 1 5 9 13))
    (h := (quarterRound · 2 6 10 14)) (k := (quarterRound · 3 7 11 15)) ?_ ?_ ?_ ?_ ?_ ?_ w <;>
  exact quarterRound_commute (by decide)

/-- The diagonals share no word either (R113). -/
theorem diagonalRound_reverse (w : Words16) :
    diagonalRound w =
      quarterRound (quarterRound (quarterRound (quarterRound w 3 4 9 14) 2 7 8 13) 1 6 11 12) 0 5 10 15 := by
  refine comp_four_reverse (f := (quarterRound · 0 5 10 15)) (g := (quarterRound · 1 6 11 12))
    (h := (quarterRound · 2 7 8 13)) (k := (quarterRound · 3 4 9 14)) ?_ ?_ ?_ ?_ ?_ ?_ w <;>
  exact quarterRound_commute (by decide)

/-- On four different words each of the four writes is the last of its word (R112). -/
theorem getElem_quarterRound_of_nodup (w : Words16) {a b c d : Fin 16} (h : [a, b, c, d].Nodup) :
    (quarterRound w a b c d)[a] = (quarterWords w[a] w[b] w[c] w[d]).1 ∧
      (quarterRound w a b c d)[b] = (quarterWords w[a] w[b] w[c] w[d]).2.1 ∧
      (quarterRound w a b c d)[c] = (quarterWords w[a] w[b] w[c] w[d]).2.2.1 ∧
      (quarterRound w a b c d)[d] = (quarterWords w[a] w[b] w[c] w[d]).2.2.2 := by
  simp only [List.nodup_cons, List.mem_cons, List.not_mem_nil, or_false, not_or] at h
  obtain ⟨⟨hab, hac, had⟩, ⟨hbc, hbd⟩, hcd, -⟩ := h
  refine ⟨?_, ?_, ?_, ?_⟩ <;> rw [getElem_quarterRound]
  · rw [if_neg (Ne.symm had), if_neg (Ne.symm hac), if_neg (Ne.symm hab), if_pos rfl]
  · rw [if_neg (Ne.symm hbd), if_neg (Ne.symm hbc), if_pos rfl]
  · rw [if_neg (Ne.symm hcd), if_pos rfl]
  · rw [if_pos rfl]

/-- Settles O54: the rotation as numbers, the quarter round word by word, and the commuting of quarter rounds that
share no word. -/
theorem quarterRoundsOfALineCommute : Obligations.QuarterRoundsOfALineCommute := by
  unfold Obligations.QuarterRoundsOfALineCommute
  refine ⟨fun x n _ _ => toNat_rotl32 x n, fun w a b c d h => ?_,
    fun w => ⟨columnRound_reverse w, diagonalRound_reverse w⟩, fun w a b c d a' b' c' d' h => ?_⟩
  · obtain ⟨ha, hb, hc, hd⟩ := getElem_quarterRound_of_nodup w h
    exact ⟨ha, hb, hc, hd, fun i hi => getElem_quarterRound_of_notMem hi⟩
  · exact (quarterRound_commute h w).symm

/-! ## The default BLOCK_FN -/

/-- A word read from four bytes, the first the least significant (R8, R34). -/
theorem toNat_le32 (bs : Bytes) (i : Nat) :
    (le32 bs i).toNat = (byteAt bs i).toNat + 2 ^ 8 * (byteAt bs (i + 1)).toNat +
      2 ^ 16 * (byteAt bs (i + 2)).toNat + 2 ^ 24 * (byteAt bs (i + 3)).toNat := by
  have h0 := (byteAt bs i).isLt
  have h1 := (byteAt bs (i + 1)).isLt
  have h2 := (byteAt bs (i + 2)).isLt
  rw [le32]
  simp only [BitVec.toNat_append]
  rw [← Nat.shiftLeft_add_eq_or_of_lt h2, ← Nat.shiftLeft_add_eq_or_of_lt h1, ← Nat.shiftLeft_add_eq_or_of_lt h0]
  simp only [Nat.shiftLeft_eq]
  omega

/-- Byte `i` of an array of bytes. -/
theorem byteAt_toList {n : Nat} (v : Vector Byte n) {i : Nat} (h : i < n) : byteAt v.toList i = v[i] := by
  rw [byteAt_of_lt (by simpa using h), Vector.getElem_toList]

theorem toNat_le32_toList {n : Nat} (v : Vector Byte n) {i : Nat} (h : i + 3 < n) :
    (le32 v.toList i).toNat = v[i].toNat + 2 ^ 8 * v[i + 1].toNat + 2 ^ 16 * v[i + 2].toNat +
      2 ^ 24 * v[i + 3].toNat := by
  rw [toNat_le32, byteAt_toList, byteAt_toList, byteAt_toList, byteAt_toList]

/-- Words 4 to 11 of the input are the key's (R111). -/
theorem chachaInput_key (key : Key) (nonce : Nonce) (ctr : W32) (i : Fin 8) :
    (chachaInput key nonce ctr)[4 + i.val] = le32 key.toList (4 * i.val) := by
  fin_cases i <;> rfl

/-- Words 13 to 15 of the input are the nonce's (R111). -/
theorem chachaInput_nonce (key : Key) (nonce : Nonce) (ctr : W32) (i : Fin 3) :
    (chachaInput key nonce ctr)[13 + i.val] = le32 nonce.toList (4 * i.val) := by
  fin_cases i <;> rfl

theorem doubleRounds_eq_iterate (n : Nat) (w : Words16) :
    doubleRounds n w = (fun w => diagonalRound (columnRound w))^[n] w := by
  induction n generalizing w with
  | zero => rfl
  | succ n ih => rw [doubleRounds, ih, Function.iterate_succ_apply]

/-- Byte `4 j + t` of a list of words is byte t of word j (R34). -/
theorem byteAt_flatMap_serLe32 (ws : List W32) {j t : Nat} (hj : j < ws.length) (ht : t < 4) :
    byteAt (ws.flatMap serLe32) (4 * j + t) = ws[j].extractLsb' (8 * t) 8 := by
  induction ws generalizing j with
  | nil => exact absurd hj j.not_lt_zero
  | cons w ws ih =>
    rw [List.flatMap_cons]
    cases j with
    | zero => interval_cases t <;> rfl
    | succ j =>
      rw [List.getElem_cons_succ, ← ih (Nat.lt_of_succ_lt_succ hj)]
      simp only [byteAt]
      rw [List.getD_append_right _ _ _ _ (by simp [serLe32]; omega)]
      congr 1
      simp [serLe32]
      omega

theorem getElem_serializeWords (o : Words16) (j : Fin 16) (t : Fin 4) :
    (serializeWords o)[4 * j.val + t.val] = o[j].extractLsb' (8 * t.val) 8 := by
  simp only [serializeWords, bytesFrom, Vector.getElem_ofFn, Nat.zero_add]
  rw [byteAt_flatMap_serLe32 _ (by simp) t.isLt]
  simp

/-- Settles O55: the input words read from key and nonce, the double rounds as an iterate, the output bytes as bytes of
words. -/
theorem blockBytesAreTheOutputWords : Obligations.BlockBytesAreTheOutputWords := by
  unfold Obligations.BlockBytesAreTheOutputWords
  intro key nonce ctr s
  refine ⟨rfl, ⟨rfl, rfl, rfl, rfl⟩, fun i => ?_, rfl, fun i => ?_, fun j t => ?_⟩
  · rw [chachaInput_key, toNat_le32_toList]
  · rw [chachaInput_nonce, toNat_le32_toList]
  · rw [chachaBlock, getElem_serializeWords, chachaOutput, ← doubleRounds_eq_iterate, Fin.getElem_fin,
      Vector.getElem_ofFn]

end Sys2Proof.Machine
end

section
/-!
PROOFS. 43_key_derivation.md: the cursor (R142), where the derived bytes come from (R143), and SHA-512's padding (R136).
-/

namespace Sys2Proof.Machine

/-! ## The cursor -/

/-- "c is only ever used modulo 64" (R142). -/
theorem walkFrom_congr (d : Digest) {c c' : Nat} (h : c % 64 = c' % 64) (n i : Nat) :
    walkFrom d n i c = walkFrom d n i c' := by
  induction n generalizing i c c' with
  | zero => rfl
  | succ n ih =>
    have hshift (k : Nat) : digestAt d (c + k) = digestAt d (c' + k) := digestAt_congr d (Nat.ModEq.add_right k h)
    rw [walkFrom_succ, walkFrom_succ, show digestAt d c = digestAt d c' from hshift 0, hshift, Nat.add_assoc c,
      hshift, ← Nat.add_assoc, ih (Nat.ModEq.add_right _ h)]

theorem toNat_digestAt_le (d : Digest) (n : Nat) : (digestAt d n).toNat ≤ 255 :=
  Nat.le_of_lt_succ (digestAt d n).isLt

/-- Every iteration moves the cursor on by at most 255 (R142). -/
theorem cursor_le {d : Digest} {c : Nat → Nat}
    (hc : ∀ i, 1 ≤ i → c (i + 1) = c i + (digestAt d (c i + (digestAt d (c i)).toNat + i)).toNat) {i : Nat}
    (hi : 1 ≤ i) : c i ≤ c 1 + 255 * (i - 1) := by
  induction i, hi using Nat.le_induction with
  | base => exact Nat.le_add_right _ _
  | succ i hi ih =>
    have hstep := toNat_digestAt_le d (c i + (digestAt d (c i)).toNat + i)
    rw [hc i hi]
    omega

/-- Settles O57: a multiple of 64 does not change the residue modulo 64, and 44 iterations move the cursor by at most
44 times 255. -/
theorem cursorMayBeKeptModulo64 : Obligations.CursorMayBeKeptModulo64 := by
  unfold Obligations.CursorMayBeKeptModulo64
  refine ⟨fun d n i c k => walkFrom_congr d (Nat.mod_mul_right_mod c 64 (k + 1)) n i, fun d c hstart hc i hi hle => ?_⟩
  have hcursor := cursor_le hc hi
  have hidx := toNat_digestAt_le d (c i)
  omega

/-! ## The derived bytes -/

theorem digestAt_mem (d : Digest) (n : Nat) : digestAt d n ∈ d.toList := by
  rw [digestAt, Vector.mem_toList_iff]
  exact Vector.getElem_mem _

/-- The walk writes bytes of the digest (R143 (c)). -/
theorem mem_digest_of_mem_walkFrom {d : Digest} {b : Byte} {n i c : Nat} (h : b ∈ walkFrom d n i c) :
    b ∈ d.toList := by
  induction n generalizing i c with
  | zero => exact absurd h List.not_mem_nil
  | succ n ih =>
    rw [walkFrom_succ, List.mem_cons] at h
    obtain rfl | h := h
    · exact digestAt_mem d _
    · exact ih h

/-- The visited positions of an index set are the set, where it is one of positions below 44 (R134). -/
theorem length_filter_visitedPositions {np : List Nat} (hnodup : np.Nodup) (hlt : ∀ p ∈ np, p < 44) :
    (visitedPositions.filter fun p => np.contains p).length = np.length := by
  refine List.Perm.length_eq ((List.perm_ext_iff_of_nodup (List.nodup_range.filter _) hnodup).mpr fun p => ?_)
  simpa [visitedPositions, kdfSteps] using hlt p

theorem length_partition_nonce {np : List Nat} (hnodup : np.Nodup) (hlt : ∀ p ∈ np, p < 44) (out : Bytes) :
    (partition np out).2.length = np.length :=
  (List.length_map _).trans (length_filter_visitedPositions hnodup hlt)

/-- What a well-formed index set is (R6, R134). -/
theorem kdfNoncePos_of_wf {cfg : Config} (h : cfg.wf = true) :
    cfg.kdfNoncePos.length = 12 ∧ cfg.kdfNoncePos.Nodup ∧ ∀ p ∈ cfg.kdfNoncePos, p < 44 := by
  rw [Config.wf, Bool.and_eq_true] at h
  simpa [Config.kdfNoncePosOk, and_assoc] using h.2

/-- Settles O59: the nonce takes the 12 positions of the index set, the key the other 32 of 44, and both are bytes of
the walk. -/
theorem derivedBytesComeFromTheDigest : Obligations.DerivedBytesComeFromTheDigest := by
  unfold Obligations.DerivedBytesComeFromTheDigest
  intro cfg M hwf
  obtain ⟨hlen, hnodup, hlt⟩ := kdfNoncePos_of_wf hwf
  have hnonce := length_partition_nonce hnodup hlt (walk cfg.kdfC0 (hashFnApply cfg.hashFn M))
  have hboth := length_partition cfg.kdfNoncePos (walk cfg.kdfC0 (hashFnApply cfg.hashFn M))
  refine ⟨by rw [derive]; omega, hnonce.trans hlen, fun b hb => ?_⟩
  exact mem_digest_of_mem_walkFrom ((partition_append_perm _ (length_walk _ _)).mem_iff.mp hb)

/-! ## SHA-512's padding -/

/-- The most significant byte comes first (R8). -/
theorem serBe_succ {w : Nat} (n : Nat) (v : BitVec w) : serBe (n + 1) v = v.extractLsb' (8 * n) 8 :: serBe n v := by
  rw [serBe, serBe, List.range_succ_eq_map, List.map_cons, List.map_map]
  refine congrArg₂ List.cons rfl (List.map_congr_left fun t _ => ?_)
  rw [Function.comp_apply, show n + 1 - 1 - t.succ = n - 1 - t by omega]

/-- Reading big-endian bytes back gives the low `8 n` bits, behind what was read before. -/
theorem foldl_serBe {w : Nat} (n : Nat) (v : BitVec w) (acc : Nat) :
    (serBe n v).foldl (fun m b => 256 * m + b.toNat) acc = acc * 2 ^ (8 * n) + v.toNat % 2 ^ (8 * n) := by
  induction n generalizing acc with
  | zero => simp [serBe, Nat.mod_one]
  | succ n ih =>
    have hpow : 2 ^ (8 * (n + 1)) = 2 ^ (8 * n) * 256 := pow_add 2 (8 * n) 8
    rw [serBe_succ, List.foldl_cons, ih, BitVec.extractLsb'_toNat, Nat.shiftRight_eq_div_pow, hpow, Nat.mod_mul]
    ring

/-- The 16 length bytes read back as the length in bits, which fits them (R136). -/
theorem foldl_serBe128_ofNat {n : Nat} (h : n < 2 ^ 128) :
    (serBe128 (BitVec.ofNat 128 n)).foldl (fun m b => 256 * m + b.toNat) 0 = n := by
  rw [serBe128, foldl_serBe, BitVec.toNat_ofNat, Nat.zero_mul, Nat.zero_add, Nat.mod_mod, Nat.mod_eq_of_lt h]

/-- Fewer zeros do not reach a multiple of 128 (R136). -/
theorem padZeros_least (len : Nat) {z : Nat} (h : z < padZeros len) : (len + 1 + z + 16) % 128 ≠ 0 := by
  have hspec := padZeros_spec len
  omega

@[simp] theorem length_blocks128 (n : Nat) (bs : Bytes) : (blocks128 n bs).length = n := by
  induction n generalizing bs with
  | zero => rfl
  | succ n ih => rw [blocks128, List.length_cons, ih]

theorem length_of_mem_blocks128 {n : Nat} {bs b : Bytes} (h : bs.length = 128 * n) (hb : b ∈ blocks128 n bs) :
    b.length = 128 := by
  induction n generalizing bs with
  | zero => exact absurd hb List.not_mem_nil
  | succ n ih =>
    rw [blocks128, List.mem_cons] at hb
    obtain rfl | hb := hb
    · exact List.length_take_of_le (by omega)
    · exact ih (by rw [List.length_drop]; omega) hb

theorem flatten_blocks128 {n : Nat} {bs : Bytes} (h : bs.length = 128 * n) : (blocks128 n bs).flatten = bs := by
  induction n generalizing bs with
  | zero => exact (List.eq_nil_of_length_eq_zero h).symm
  | succ n ih => rw [blocks128, List.flatten_cons, ih (by rw [List.length_drop]; omega), List.take_append_drop]

/-- Settles O60: the zeros by the arithmetic of z, the length field by reading it back, and the blocks by cutting a
string whose length is a multiple of 128. -/
theorem paddedMessageHasTheStatedShape : Obligations.PaddedMessageHasTheStatedShape := by
  unfold Obligations.PaddedMessageHasTheStatedShape
  intro M hM
  have hpad := length_shaPad M
  refine ⟨⟨padZeros M.length, serBe128 (BitVec.ofNat 128 (8 * M.length)), rfl, length_serBe _ _,
    (padZeros_spec M.length).1, fun z hz => padZeros_least M.length hz, foldl_serBe128_ofNat hM⟩,
    length_blocks128 _ _, fun b hb => length_of_mem_blocks128 hpad hb, flatten_blocks128 hpad⟩

end Sys2Proof.Machine
end
